-- ==== Sys2Proof/Word.lean ====
section
/-! DEFINITION. Words (spec/00_scope.md R7, R12). A Word is a signed integer in a range fixed by the word width `W`;
no rule of the spec reads the bits of a Word and it has no byte view (R40, 92 D29, 93 G1). So wherever the spec says
Word the model's type is `Int`, and `isWord` is the range check every claim about Words uses (log 1). -/

namespace Sys2Proof

/-- The least Word of width `W`: `-2^(W-1)` (R12). -/
def minWord (W : Nat) : Int := -((2 ^ (W - 1) : Nat) : Int)

/-- The greatest Word of width `W`: `2^(W-1) - 1` (R12). -/
def maxWord (W : Nat) : Int := ((2 ^ (W - 1) : Nat) : Int) - 1

/-- `isWord(v)` of R12: `v` lies in the range of a `W`-bit signed integer. -/
abbrev isWord (W : Nat) (v : Int) : Prop := minWord W ≤ v ∧ v ≤ maxWord W

end Sys2Proof
end

