-- ==== Sys2Proof/Config.lean ====
section
/-! DEFINITION. The configuration of one VM instance (spec/00_scope.md R7 to R10; spec/10_state.md R21): fixed for the
life of the instance, changed by no instruction and no host operation. The machine takes it as an argument (it stands
beside the architectural state in `Machine.State`), so every statement about all states is about all configurations. -/

namespace Sys2Proof

/-- `OVERFLOW_MODE` (R9): what an `add`, a `mul` or an `adjust-relative-base` does with a result that is no Word. -/
inductive OverflowMode where
  | fault
  | wrap
  deriving DecidableEq, Repr

/-- `EXCESS_DIGITS` (R10): what the decoder does with nonzero digits above the mode digits. -/
inductive ExcessDigits where
  | ignore
  | reject
  deriving DecidableEq, Repr

/-- The four parameters of an instance (R21). -/
structure Config where
  /-- `WORD_BITS`, the width `W` of a Word (R7). -/
  wordBits : Nat
  /-- `CAPACITY`, the number of Words of memory (R8). -/
  cap : Nat
  /-- `OVERFLOW_MODE` (R9). -/
  overflowMode : OverflowMode
  /-- `EXCESS_DIGITS` (R10). -/
  excessDigits : ExcessDigits
  deriving DecidableEq, Repr

/-- What the spec requires of the parameters: `W >= 64` (R7) and `CAP <= 2^(W-1) - 4` (R8). -/
abbrev Config.valid (c : Config) : Prop := 64 ≤ c.wordBits ∧ c.cap + 4 ≤ 2 ^ (c.wordBits - 1)

/-- The spec's defaults (`W = 64` R7, `fault` R9, `ignore` R10) at capacity `cap`, which has no default (R8). -/
def Config.standard (cap : Nat) : Config :=
  { wordBits := 64, cap := cap, overflowMode := .fault, excessDigits := .ignore }

/-- The capacity of the instance `State.reset` stands for. DESIGN CHOICE (log 3, unsafe): the spec leaves `CAP` open
("e.g. several thousand words", R8); no statement rests on it. -/
def Config.resetCap : Nat := 4096

end Sys2Proof
end

