-- ==== Sys2Proof/Raise.lean ====
section
/-! DEFINITION. The run faults of the machine (spec/60_exceptions.md R150) and what a `raise K(info)` carries
(spec/00_scope.md R16). The decoder and the operand phase answer with a `Raise`; the machine enters the fault with it
(`Machine.State.faultEntry`, R157). -/

namespace Sys2Proof

/-- The five fault kinds of R150 (their numbers are `FaultKind.code`). -/
inductive FaultKind where
  | invalidOpcode
  | invalidMode
  | invalidWriteMode
  | outOfBounds
  | overflow
  deriving DecidableEq, Repr

/-- `raise K(info)` (R16, R30). The record's `pc` and `word` are added at fault entry (R157). -/
structure Raise where
  kind : FaultKind
  /-- The parameter index, for mode faults and out-of-bounds parameter accesses. -/
  param : Option Nat := none
  /-- The offending mode digit. -/
  mode : Option Int := none
  /-- The offending address. -/
  addr : Option Int := none
  deriving DecidableEq, Repr

end Sys2Proof
end

