-- ==== Sys2Proof/Machine/State.lean ====
section
/-! DEFINITION. The state of one VM instance (spec/10_state.md R20 to R34), its value at reset, and the reasons a step
can stop. -/

namespace Sys2Proof.Machine

/-- Memory: the nonzero Words, by address (R22). Addresses are strictly rising and no listed Word is 0, which is what an
unlisted address reads as (`Memory.wf`). A cell is a Word, not a byte: the machine has no byte view (R40, log 2). -/
abbrev Memory := List (Nat × Int)

/-- The execution state `st` (R29). -/
inductive ExecState where
  | ready
  | waiting
  | halted
  | faulted
  deriving DecidableEq, Repr

/-- The fault record `flt` (R30). -/
structure FaultRecord where
  kind : FaultKind
  /-- `pc` at the faulting instruction. -/
  pc : Int
  /-- The instruction word; none when the fetch itself was out of bounds. -/
  word : Option Int
  /-- The parameter index, for mode faults and out-of-bounds parameter accesses. -/
  param : Option Nat
  /-- The offending mode digit, for `InvalidMode` and `InvalidWriteMode`. -/
  mode : Option Int
  /-- The offending address, for `OutOfBounds`. -/
  addr : Option Int
  deriving DecidableEq, Repr

/-- The architectural state `(mem, pc, rb, inputs, outputs, st, flt)` (R20), beside the instance's fixed configuration
(R21), which no step changes. -/
structure State where
  /-- `W`, `CAP`, `OVERFLOW_MODE`, `EXCESS_DIGITS`: configuration, not state (R21). -/
  cfg : Config
  /-- The memory of `CAP` Words (R22). -/
  mem : Memory
  /-- The program counter (R23). -/
  pc : Int
  /-- The relative base (R24). -/
  rb : Int
  /-- The input queue, front first (R26). -/
  inputs : List Int
  /-- The output queue, front (oldest) first (R27). -/
  outputs : List Int
  /-- The execution state (R29). -/
  st : ExecState
  /-- The fault record (R30). -/
  flt : Option FaultRecord
  deriving DecidableEq, Repr

/-- Why the machine stops outside its own states: never. Every fault of the spec has an entry it describes (R157), so it is
a next state with `st = Faulted`, and no behaviour is left without an effect. No constructor, so nobody raises one (safe:
it can hide nothing). -/
inductive Fault where
  deriving DecidableEq, Repr

/-- Why an instruction has no meaning. -/
inductive Refusal where
  /-- Raised by an arm of `exec` whose instruction has no meaning yet (safe). No arm raises it: all ten have one. -/
  | notModelled (mnemonic : String)
  deriving DecidableEq, Repr

/-- The machine after reset: the state `create([], [], CAP)` leaves (R34, R180) at the spec's default parameters and the
capacity of log 3. No program is in it: a program comes from outside (log 4). -/
def State.reset : State :=
  { cfg := Config.standard Config.resetCap, mem := [], pc := 0, rb := 0, inputs := [], outputs := [],
    st := .ready, flt := none }

end Sys2Proof.Machine
end

