-- ==== Sys2Proof/Machine/Ops.lean ====
section
/-! DEFINITION. The named operations over memory, registers and queues, taking a fault (spec/60_exceptions.md R157), and
suspension with its return (R160). Register and queue access goes through these. -/

namespace Sys2Proof.Machine

/-! ## Memory (spec/20_memory.md) -/

/-- `mem[a]`: the listed Word, or 0 (R22). -/
def Memory.get : Memory → Nat → Int
  | [], _ => 0
  | (k, v) :: rest, a => if k = a then v else Memory.get rest a

/-- A cell put before the first one with a greater address. -/
def Memory.insert : Memory → Nat → Int → Memory
  | [], a, v => [(a, v)]
  | (k, x) :: rest, a, v => if a < k then (a, v) :: (k, x) :: rest else (k, x) :: Memory.insert rest a v

/-- `mem[a] <- v`: the old cell goes, and the new one is listed unless it is 0. -/
def Memory.set (m : Memory) (a : Nat) (v : Int) : Memory :=
  let cleared := m.filter (fun c => c.1 ≠ a)
  if v = 0 then cleared else Memory.insert cleared a v

/-- The canonical form: addresses strictly rising, no cell equal to what an unlisted address reads as. -/
abbrev Memory.wf (m : Memory) : Prop := (m.map Prod.fst).Pairwise (· < ·) ∧ ∀ c ∈ m, c.2 ≠ 0

/-- The memory whose Words from address `a` on are `ws`, and 0 elsewhere (the load of R180). -/
def Memory.load : Nat → List Int → Memory
  | _, [] => []
  | a, v :: ws => if v = 0 then Memory.load (a + 1) ws else (a, v) :: Memory.load (a + 1) ws

/-- `inBounds(a)` is `0 <= a < CAP` (R14, R42). -/
def State.inBounds (s : State) (a : Int) : Bool := decide (0 ≤ a ∧ a < (s.cfg.cap : Int))

/-- `raise OutOfBounds(a)` (R42, R154), for the parameter whose access it is (none at the fetch). -/
def raiseOutOfBounds (a : Int) (param : Option Nat) : Raise :=
  { kind := .outOfBounds, param := param, addr := some a }

/-- `MemRead(a, 1)` (R43). -/
def State.memRead (s : State) (a : Int) (param : Option Nat) : Except Raise Int :=
  if s.inBounds a then .ok (s.mem.get a.toNat) else .error (raiseOutOfBounds a param)

/-- The write of `MemWrite`, for an address already checked (R44; in an instruction phase O has checked it, R87). -/
def State.store (s : State) (a : Int) (v : Int) : State := { s with mem := s.mem.set a.toNat v }

/-- `MemWrite(a, 1, v)` (R44). -/
def State.memWrite (s : State) (a : Int) (v : Int) (param : Option Nat) : Except Raise State :=
  if s.inBounds a then .ok (s.store a v) else .error (raiseOutOfBounds a param)

/-- The Word at `pc`: `w` of phase F (R84), none when the fetch is out of bounds. -/
def State.wordAtPc (s : State) : Option Int :=
  if s.inBounds s.pc then some (s.mem.get s.pc.toNat) else none

/-! ## Registers and queues (spec/10_state.md) -/

/-- `pc <- v`. -/
def State.setPc (s : State) (v : Int) : State := { s with pc := v }

/-- `pc <- pc + k` (R89). -/
def State.advance (s : State) (k : Int) : State := s.setPc (s.pc + k)

/-- `rb <- v`. -/
def State.setRb (s : State) (v : Int) : State := { s with rb := v }

/-- `popFront(inputs)`'s effect (R15, R26). -/
def State.dropInput (s : State) : State := { s with inputs := s.inputs.tail }

/-- `pushBack(outputs, v)` (R15, R27). -/
def State.pushOutput (s : State) (v : Int) : State := { s with outputs := s.outputs ++ [v] }

/-! ## The execution state: suspension, its return, and halt -/

/-- `Halted` and `Faulted` are terminal (R81). -/
def ExecState.terminal : ExecState → Bool
  | .ready => false
  | .waiting => false
  | .halted => true
  | .faulted => true

/-- `run()`'s `st <- Ready` on entry: the return from a suspension (R80, R160). -/
def State.resume (s : State) : State := { s with st := .ready }

/-- The suspension: `st <- Waiting`, nothing else (R80, R160). -/
def State.suspend (s : State) : State := { s with st := .waiting }

/-- The halt: `st <- Halted`, nothing else (R80, R141). -/
def State.stop (s : State) : State := { s with st := .halted }

/-! ## Taking a fault -/

/-- `FaultEntry(K, info)` (R157): `st <- Faulted` and the record is written, nothing else. `word` is the Word at `pc`, which
is `w` of phase F, for no phase writes before a raise (R16, R83, R90; log 6). There is no return from a fault (R159). -/
def State.faultEntry (s : State) (r : Raise) : State :=
  { s with
    st := .faulted
    flt := some { kind := r.kind, pc := s.pc, word := s.wordAtPc, param := r.param, mode := r.mode, addr := r.addr } }

/-- How an instruction ends: its state, or the entry of the fault it raised, taken from the state before it (R16, R90). -/
def State.complete (s : State) (r : Except Raise State) : Host.Outcome State Fault Refusal :=
  match r with
  | .ok t => .next t
  | .error e => .next (s.faultEntry e)

end Sys2Proof.Machine
end

