-- ==== Sys2Proof/Machine/Alu.lean ====
section
/-! DEFINITION. The arithmetic half of the ALU (spec/41_arithmetic.md R100 to R102). -/

namespace Sys2Proof.Machine

/-- `floormod(v + 2^(W-1), 2^W) - 2^(W-1)`: the Word that `v` wraps to (R102). -/
def wrapWord (W : Nat) (v : Int) : Int :=
  (v + ((2 ^ (W - 1) : Nat) : Int)).fmod ((2 ^ W : Nat) : Int) - ((2 ^ (W - 1) : Nat) : Int)

/-- `fit(v)` (R102). -/
def fit (cfg : Config) (v : Int) : Except Raise Int :=
  if isWord cfg.wordBits v then .ok v
  else
    match cfg.overflowMode with
    | .fault => .error { kind := .overflow }
    | .wrap => .ok (wrapWord cfg.wordBits v)

/-- `ALU_ADD(a, b)` (R100). -/
def aluAdd (cfg : Config) (a b : Int) : Except Raise Int := fit cfg (a + b)

/-- `ALU_MUL(a, b)` (R101). -/
def aluMul (cfg : Config) (a b : Int) : Except Raise Int := fit cfg (a * b)

end Sys2Proof.Machine
end

