-- ==== Sys2Proof/Syntax.lean ====
section
/-! DEFINITION. The instructions (spec/30_encoding.md R62, spec/opcode_table.json): one constructor per row of the
table. An operand is a mode and its parameter word (R64, R65). -/

namespace Sys2Proof

/-- The three address modes (R65). -/
inductive Mode where
  /-- Mode 0: the parameter is a memory address. -/
  | position
  /-- Mode 1: the parameter is the operand value (read operands only). -/
  | immediate
  /-- Mode 2: the parameter is an offset added to `rb`. -/
  | relative
  deriving DecidableEq, Repr

/-- Whether an instruction uses a parameter's value or writes to the address it names (R62, R65). -/
inductive OperandKind where
  | read
  | write
  deriving DecidableEq, Repr

/-- One operand: its mode and its parameter word, taken whole (R64). -/
structure Operand where
  mode : Mode
  param : Int
  deriving DecidableEq, Repr

/-- The ten instructions (R2, R62). -/
inductive Instr where
  /-- Opcode 1, R103. -/
  | add (a b dest : Operand)
  /-- Opcode 2, R104. -/
  | mul (a b dest : Operand)
  /-- Opcode 3, R110. -/
  | input (dest : Operand)
  /-- Opcode 4, R111. -/
  | output (a : Operand)
  /-- Opcode 5, R121. -/
  | jumpIfTrue (a b : Operand)
  /-- Opcode 6, R122. -/
  | jumpIfFalse (a b : Operand)
  /-- Opcode 7, R132. -/
  | lessThan (a b dest : Operand)
  /-- Opcode 8, R133. -/
  | equals (a b dest : Operand)
  /-- Opcode 9, R140. -/
  | adjustRelativeBase (a : Operand)
  /-- Opcode 99, R141. -/
  | halt
  deriving DecidableEq, Repr

end Sys2Proof
end

