-- ==== Sys2Proof/WellFormed.lean ====
section
/-! DEFINITION. Which terms of `Instr` an encoding can spell (spec/30_encoding.md R64, R65, R69): a write operand is
never in immediate mode, and every parameter word is a Word. -/

namespace Sys2Proof

/-- The operands of an instruction in parameter order, each with its kind (the table of R62). -/
def Instr.operands : Instr → List (OperandKind × Operand)
  | .add a b dest => [(.read, a), (.read, b), (.write, dest)]
  | .mul a b dest => [(.read, a), (.read, b), (.write, dest)]
  | .input dest => [(.write, dest)]
  | .output a => [(.read, a)]
  | .jumpIfTrue a b => [(.read, a), (.read, b)]
  | .jumpIfFalse a b => [(.read, a), (.read, b)]
  | .lessThan a b dest => [(.read, a), (.read, b), (.write, dest)]
  | .equals a b dest => [(.read, a), (.read, b), (.write, dest)]
  | .adjustRelativeBase a => [(.read, a)]
  | .halt => []

/-- `n(op)`, the number of parameters (R62). The instruction is `1 + n(op)` Words long (R63). -/
def Instr.nparams (i : Instr) : Nat := i.operands.length

/-- A parameter word is a Word (R64), and a write operand is not in immediate mode (R69). -/
abbrev Operand.wellFormed (W : Nat) (kind : OperandKind) (o : Operand) : Prop :=
  isWord W o.param ∧ (kind = .write → o.mode ≠ .immediate)

/-- Every operand is well formed at word width `W`. -/
abbrev Instr.wellFormed (W : Nat) (i : Instr) : Prop :=
  ∀ p ∈ i.operands, p.2.wellFormed W p.1

end Sys2Proof
end

