-- ==== Sys2Proof/Machine/Operands.lean ====
section
/-! DEFINITION. Phase O (spec/40_execution.md R86 to R88): the operand forms. A parameter word is fetched, then its operand
resolved, parameter by parameter; a meaning calls `readParam` and `writeParam` in ascending index order. -/

namespace Sys2Proof.Machine

/-- The memory address a position- or relative-mode operand names (R65, R86, R87), computed in `Int`: no wrap. An
immediate operand names none; its parameter stands here and is never dereferenced. -/
def State.effectiveAddress (s : State) (o : Operand) : Int :=
  match o.mode with
  | .position => o.param
  | .immediate => o.param
  | .relative => s.rb + o.param

/-- `ReadOperand(m, p)` for parameter `i` (R86). -/
def State.readOperand (s : State) (i : Nat) (o : Operand) : Except Raise Int :=
  match o.mode with
  | .immediate => .ok o.param
  | .position => s.memRead (s.effectiveAddress o) (some i)
  | .relative => s.memRead (s.effectiveAddress o) (some i)

/-- The bounds check of a write address (R87). -/
def State.checkedAddress (s : State) (i : Nat) (a : Int) : Except Raise Int :=
  if s.inBounds a then .ok a else .error (raiseOutOfBounds a (some i))

/-- `WriteAddress(m, p)` for parameter `i` (R87). Decode lets no immediate write operand through (R85); on an ill-formed
term the same fault is raised here. -/
def State.writeAddress (s : State) (i : Nat) (o : Operand) : Except Raise Int :=
  match o.mode with
  | .immediate => .error { kind := .invalidWriteMode, param := some i, mode := some 1 }
  | .position => s.checkedAddress i (s.effectiveAddress o)
  | .relative => s.checkedAddress i (s.effectiveAddress o)

/-- `p_i <- MemRead(pc + 1 + i, 1)` (R88): the bounds check of the parameter word. Its value is the instruction's own
operand, which `State.fetchDecode` took from that address (log 7). -/
def State.checkParam (s : State) (i : Nat) : Except Raise Unit :=
  if s.inBounds (s.pc + 1 + i) then .ok () else .error (raiseOutOfBounds (s.pc + 1 + i) (some i))

/-- Parameter `i`, a read operand: `val_i` (R88). -/
def State.readParam (s : State) (i : Nat) (o : Operand) : Except Raise Int := do
  s.checkParam i
  s.readOperand i o

/-- Parameter `i`, a write operand: `ea_i` (R88). -/
def State.writeParam (s : State) (i : Nat) (o : Operand) : Except Raise Int := do
  s.checkParam i
  s.writeAddress i o

/-! ## When an operand resolves, and to what: the terms claims are stated in -/

/-- The value of a read operand that resolves (R65, R86). -/
def State.operandValue (s : State) (o : Operand) : Int :=
  match o.mode with
  | .immediate => o.param
  | .position => s.mem.get (s.effectiveAddress o).toNat
  | .relative => s.mem.get (s.effectiveAddress o).toNat

/-- A read operand resolves: it is immediate, or its address is in bounds (R86). -/
def State.readable (s : State) (o : Operand) : Bool :=
  decide (o.mode = .immediate) || s.inBounds (s.effectiveAddress o)

/-- A write operand resolves: it is not immediate, and its address is in bounds (R85, R87). -/
def State.writable (s : State) (o : Operand) : Bool :=
  decide (o.mode ≠ .immediate) && s.inBounds (s.effectiveAddress o)

/-- The `n` parameter words after `pc` are in bounds (R88). -/
abbrev State.paramsInBounds (s : State) (n : Nat) : Prop :=
  ∀ i < n, s.inBounds (s.pc + 1 + (i : Int)) = true

end Sys2Proof.Machine
end

