-- ==== Sys2Proof/Machine/Arithmetic.lean ====
section
/-! DEFINITION. The two-source instructions' shared operation, and `add` and `mul` (spec/41_arithmetic.md). -/

namespace Sys2Proof.Machine

/-- Format F4's phases O and E (R88, R90): resolve `a`, `b` and `dest`, compute `f`, write it to `dest`, `pc <- pc + 4`. -/
def State.binaryToMemory (s : State) (a b dest : Operand) (f : Int → Int → Except Raise Int) :
    Except Raise State := do
  let x ← s.readParam 0 a
  let y ← s.readParam 1 b
  let ea ← s.writeParam 2 dest
  let r ← f x y
  return (s.store ea r).advance 4

/-- `add` (R103). -/
def execAdd (a b dest : Operand) (s : State) : Host.Outcome State Fault Refusal :=
  s.complete (s.binaryToMemory a b dest (aluAdd s.cfg))

/-- `mul` (R104). -/
def execMul (a b dest : Operand) (s : State) : Host.Outcome State Fault Refusal :=
  s.complete (s.binaryToMemory a b dest (aluMul s.cfg))

end Sys2Proof.Machine
end

