-- ==== Sys2Proof/Machine/BaseHalt.lean ====
section
/-! DEFINITION. `adjust-relative-base` and `halt` (spec/45_base_halt.md). -/

namespace Sys2Proof.Machine

/-- `adjust-relative-base` (R140): the operand is resolved with the old `rb`. -/
def execAdjustRelativeBase (a : Operand) (s : State) : Host.Outcome State Fault Refusal :=
  s.complete do
    let x ← s.readParam 0 a
    let r ← fit s.cfg (s.rb + x)
    return (s.setRb r).advance 2

/-- `halt` (R141): `pc` stays at the halt's address. -/
def execHalt (s : State) : Host.Outcome State Fault Refusal :=
  s.complete (.ok s.stop)

end Sys2Proof.Machine
end

