-- ==== Sys2Proof/Machine/Flags.lean ====
section
/-! DEFINITION. Conditions. The machine has NO flags (spec/10_state.md R25): a comparison's result is the Word 1 or 0,
written to memory, and a jump tests a Word for zero. These are the ALU's condition functions (spec/43_jump.md R120;
spec/44_compare.md R130, R131). -/

namespace Sys2Proof.Machine

/-- `ZERO(a)` (R120). -/
def zeroTest (a : Int) : Bool := decide (a = 0)

/-- `ALU_LT(a, b)` (R130). -/
def aluLt (a b : Int) : Int := if a < b then 1 else 0

/-- `ALU_EQ(a, b)` (R131). -/
def aluEq (a b : Int) : Int := if a = b then 1 else 0

end Sys2Proof.Machine
end

