-- ==== Sys2Proof/Machine/Compare.lean ====
section
/-! DEFINITION. `less-than` and `equals` (spec/44_compare.md). -/

namespace Sys2Proof.Machine

/-- `less-than` (R132). -/
def execLessThan (a b dest : Operand) (s : State) : Host.Outcome State Fault Refusal :=
  s.complete (s.binaryToMemory a b dest (fun x y => .ok (aluLt x y)))

/-- `equals` (R133). -/
def execEquals (a b dest : Operand) (s : State) : Host.Outcome State Fault Refusal :=
  s.complete (s.binaryToMemory a b dest (fun x y => .ok (aluEq x y)))

end Sys2Proof.Machine
end

