-- ==== Sys2Proof/Machine/InputOutput.lean ====
section
/-! DEFINITION. `input` and `output` (spec/42_io.md). -/

namespace Sys2Proof.Machine

/-- Phase E of `input` at a checked address (R110): `Wait` when `inputs` is empty, else the front goes to memory. -/
def State.takeInput (s : State) (ea : Int) : State :=
  match s.inputs with
  | [] => s.suspend
  | v :: _ => (s.dropInput.store ea v).advance 2

/-- `input` (R110). The operand's faults come before the empty-queue test. -/
def execInput (dest : Operand) (s : State) : Host.Outcome State Fault Refusal :=
  s.complete do
    let ea ← s.writeParam 0 dest
    return s.takeInput ea

/-- `output` (R111). -/
def execOutput (a : Operand) (s : State) : Host.Outcome State Fault Refusal :=
  s.complete do
    let x ← s.readParam 0 a
    return (s.pushOutput x).advance 2

end Sys2Proof.Machine
end

