-- ==== Sys2Proof/Machine/Jump.lean ====
section
/-! DEFINITION. The conditional jumps (spec/43_jump.md). -/

namespace Sys2Proof.Machine

/-- Format F3's phases O and E: both operands are resolved whether or not the jump is taken (R121); a taken jump's target
is any Word and is not checked here (R123). DESIGN CHOICE (log 18): the spec contradicts itself on the target of `1005,c,t`, and
`b` here has the mode its digit spells by R61 and R121 (digit 3 is 1: immediate, so the jump goes to `t`), not the position
mode of R123's example and of V53. -/
def State.jumpWhen (s : State) (a b : Operand) (taken : Int → Bool) : Except Raise State := do
  let x ← s.readParam 0 a
  let y ← s.readParam 1 b
  return if taken x then s.setPc y else s.advance 3

/-- `jump-if-true` (R121). -/
def execJumpIfTrue (a b : Operand) (s : State) : Host.Outcome State Fault Refusal :=
  s.complete (s.jumpWhen a b (fun x => !zeroTest x))

/-- `jump-if-false` (R122). -/
def execJumpIfFalse (a b : Operand) (s : State) : Host.Outcome State Fault Refusal :=
  s.complete (s.jumpWhen a b zeroTest)

end Sys2Proof.Machine
end

