-- ==== Sys2Proof/Machine/Dispatch.lean ====
section
/-! DEFINITION. One arm per instruction: phases O and E of the instruction (spec/40_execution.md R88, R89). -/

namespace Sys2Proof.Machine

def exec (i : Instr) (s : State) : Host.Outcome State Fault Refusal :=
  match i with
  | .add a b dest => Sys2Proof.Machine.execAdd a b dest s
  | .mul a b dest => Sys2Proof.Machine.execMul a b dest s
  | .input dest => Sys2Proof.Machine.execInput dest s
  | .output a => Sys2Proof.Machine.execOutput a s
  | .jumpIfTrue a b => Sys2Proof.Machine.execJumpIfTrue a b s
  | .jumpIfFalse a b => Sys2Proof.Machine.execJumpIfFalse a b s
  | .lessThan a b dest => Sys2Proof.Machine.execLessThan a b dest s
  | .equals a b dest => Sys2Proof.Machine.execEquals a b dest s
  | .adjustRelativeBase a => Sys2Proof.Machine.execAdjustRelativeBase a s
  | .halt => Sys2Proof.Machine.execHalt s

end Sys2Proof.Machine
end

