-- ==== Sys2Proof/Decode.lean ====
section
/-! DEFINITION. The decoder (spec/30_encoding.md R60 to R71; spec/40_execution.md R85), total on any words and
rejecting by the fault the spec names, and after it the encoder (R61, R72). Fields are decimal digits of the
instruction word, not bits. -/

namespace Sys2Proof

/-! ## Digits (R13) -/

/-- `w div d`, the quotient rounded toward zero (R13). -/
def quotient (w d : Int) : Int := w.tdiv d

/-- `w rem d`, with the sign of `w` (R13). -/
def remainder (w d : Int) : Int := w.tmod d

/-- `10^k` as an integer. -/
def pow10 (k : Nat) : Int := ((10 ^ k : Nat) : Int)

/-- `digit(w, k) = (w div 10^k) rem 10` (R13). -/
def digit (w : Int) (k : Nat) : Int := remainder (quotient w (pow10 k)) 10

/-- The opcode, `op = w rem 100` (R61). -/
def opcodeField (w : Int) : Int := remainder w 100

/-! ## The checks of phase D, in their order (R85) -/

/-- The mode a digit names; none for 3 to 9 (R65, R68). -/
def modeOfDigit (d : Int) : Option Mode :=
  if d = 0 then some .position
  else if d = 1 then some .immediate
  else if d = 2 then some .relative
  else none

/-- The digit of a mode (R65). -/
def Mode.digit : Mode → Int
  | .position => 0
  | .immediate => 1
  | .relative => 2

/-- The mode of parameter `i`: the mode check (R68), then, for a write operand, the write-mode check (R69). -/
def decodeMode (w : Int) (kind : OperandKind) (i : Nat) : Except Raise Mode :=
  match modeOfDigit (digit w (i + 2)) with
  | none => .error { kind := .invalidMode, param := some i, mode := some (digit w (i + 2)) }
  | some m =>
    if kind = .write ∧ m = .immediate then
      .error { kind := .invalidWriteMode, param := some i, mode := some 1 }
    else .ok m

/-- The least `k >= j` with `digit(w, k + 2) ≠ 0` among the next `fuel` (R70, R85). -/
def leastExcess (w : Int) : (fuel : Nat) → (j : Nat) → Nat
  | 0, j => j
  | fuel + 1, j => if digit w (j + 2) ≠ 0 then j else leastExcess w fuel (j + 1)

/-- The digits above the `n` mode digits (R70): not examined under `ignore`; under `reject` the lowest nonzero one is an
`InvalidMode`. The fuel `w` is more than the digits of `w`. -/
def checkExcess (cfg : Config) (w : Int) (n : Nat) : Except Raise Unit :=
  if cfg.excessDigits = .reject ∧ quotient w (pow10 (n + 2)) ≠ 0 then
    .error { kind := .invalidMode, param := some (leastExcess w w.toNat n),
             mode := some (digit w (leastExcess w w.toNat n + 2)) }
  else .ok ()

/-! ## The formats (R61) -/

/-- Format F4: two read operands and a write operand. -/
def decodeF4 (cfg : Config) (w p0 p1 p2 : Int) (mk : Operand → Operand → Operand → Instr) : Except Raise Instr := do
  let m0 ← decodeMode w .read 0
  let m1 ← decodeMode w .read 1
  let m2 ← decodeMode w .write 2
  checkExcess cfg w 3
  return mk ⟨m0, p0⟩ ⟨m1, p1⟩ ⟨m2, p2⟩

/-- Format F3: two read operands, the mode of parameter 1 in digit 3 (R61). DESIGN CHOICE (log 18): so `1005,c,t` has an
immediate target `t`, against the example of R123 and the vector V53, which read the target from `mem[t]`. -/
def decodeF3 (cfg : Config) (w p0 p1 : Int) (mk : Operand → Operand → Instr) : Except Raise Instr := do
  let m0 ← decodeMode w .read 0
  let m1 ← decodeMode w .read 1
  checkExcess cfg w 2
  return mk ⟨m0, p0⟩ ⟨m1, p1⟩

/-- Format F2: one operand, of the given kind. -/
def decodeF2 (cfg : Config) (w p0 : Int) (kind : OperandKind) (mk : Operand → Instr) : Except Raise Instr := do
  let m0 ← decodeMode w kind 0
  checkExcess cfg w 1
  return mk ⟨m0, p0⟩

/-- Format F1: no operand. -/
def decodeF1 (cfg : Config) (w : Int) (i : Instr) : Except Raise Instr := do
  checkExcess cfg w 0
  return i

/-- Phase D (R85) on the instruction word `w`, with the parameter words `p0 p1 p2` that follow it (those beyond the
instruction's length are not used). Negative words and opcodes outside the map of R62 are `InvalidOpcode` (R66, R67). -/
def decodeWord (cfg : Config) (w p0 p1 p2 : Int) : Except Raise Instr :=
  if w < 0 then .error { kind := .invalidOpcode }
  else if opcodeField w = 1 then decodeF4 cfg w p0 p1 p2 .add
  else if opcodeField w = 2 then decodeF4 cfg w p0 p1 p2 .mul
  else if opcodeField w = 3 then decodeF2 cfg w p0 .write .input
  else if opcodeField w = 4 then decodeF2 cfg w p0 .read .output
  else if opcodeField w = 5 then decodeF3 cfg w p0 p1 .jumpIfTrue
  else if opcodeField w = 6 then decodeF3 cfg w p0 p1 .jumpIfFalse
  else if opcodeField w = 7 then decodeF4 cfg w p0 p1 p2 .lessThan
  else if opcodeField w = 8 then decodeF4 cfg w p0 p1 p2 .equals
  else if opcodeField w = 9 then decodeF2 cfg w p0 .read .adjustRelativeBase
  else if opcodeField w = 99 then decodeF1 cfg w .halt
  else .error { kind := .invalidOpcode }

/-- Why a list of words spells no instruction. -/
inductive DecodeError where
  /-- There is no word at all. -/
  | noWord
  /-- The instruction word is illegal: the fault the spec names for it (R66 to R70). -/
  | illegal (r : Raise)
  /-- The list ends before the instruction's last parameter word (R60). -/
  | truncated
  deriving DecidableEq, Repr

/-- The instruction at the head of a list of words (R60), with the words after it. -/
def decode (cfg : Config) : List Int → Except DecodeError (Instr × List Int)
  | [] => .error .noWord
  | w :: ps =>
    match decodeWord cfg w (ps.getD 0 0) (ps.getD 1 0) (ps.getD 2 0) with
    | .error r => .error (.illegal r)
    | .ok i => if ps.length < i.nparams then .error .truncated else .ok (i, ps.drop i.nparams)

/-! ## The encoder (R61, R72) -/

/-- `w = op + 100*m0 + 1000*m1 + 10000*m2` (R61). -/
def instrWord (op : Int) (m0 m1 m2 : Mode) : Int :=
  op + 100 * m0.digit + 1000 * m1.digit + 10000 * m2.digit

/-- The words of an instruction: the instruction word, then the parameter words in order (R60, R72). A format with
fewer than three parameters has no digit above its last mode digit: position mode's digit 0 stands there. -/
def encode : Instr → List Int
  | .add a b d => [instrWord 1 a.mode b.mode d.mode, a.param, b.param, d.param]
  | .mul a b d => [instrWord 2 a.mode b.mode d.mode, a.param, b.param, d.param]
  | .input d => [instrWord 3 d.mode .position .position, d.param]
  | .output a => [instrWord 4 a.mode .position .position, a.param]
  | .jumpIfTrue a b => [instrWord 5 a.mode b.mode .position, a.param, b.param]
  | .jumpIfFalse a b => [instrWord 6 a.mode b.mode .position, a.param, b.param]
  | .lessThan a b d => [instrWord 7 a.mode b.mode d.mode, a.param, b.param, d.param]
  | .equals a b d => [instrWord 8 a.mode b.mode d.mode, a.param, b.param, d.param]
  | .adjustRelativeBase a => [instrWord 9 a.mode .position .position, a.param]
  | .halt => [instrWord 99 .position .position .position]

/-! ## Assembler (R72, R73) -/

/-- The spec's assembly mnemonic (R62). -/
def Instr.asmMnemonic : Instr → String
  | .add _ _ _ => "add"
  | .mul _ _ _ => "mul"
  | .input _ => "in"
  | .output _ => "out"
  | .jumpIfTrue _ _ => "jt"
  | .jumpIfFalse _ _ => "jf"
  | .lessThan _ _ _ => "lt"
  | .equals _ _ _ => "eq"
  | .adjustRelativeBase _ => "arb"
  | .halt => "halt"

/-- A signed decimal integer (R72). -/
def asmInt (v : Int) : List Char := (if v < 0 then ['-'] else []) ++ Nat.toDigits 10 v.natAbs

/-- An operand's form: `[p]`, `#p`, `[rb+p]` or `[rb-p]` (R72). -/
def Operand.asm (o : Operand) : List Char :=
  match o.mode with
  | .position => '[' :: asmInt o.param ++ [']']
  | .immediate => '#' :: asmInt o.param
  | .relative => ['[', 'r', 'b'] ++ (if o.param < 0 then [] else ['+']) ++ asmInt o.param ++ [']']

/-- One line of assembly: `mnemonic op0, op1, op2` (R72). -/
def Instr.asm (i : Instr) : List Char :=
  match i.operands with
  | [] => i.asmMnemonic.toList
  | ops => i.asmMnemonic.toList ++ ' ' :: [',', ' '].intercalate (ops.map (fun p => p.2.asm))

/-- The pseudo-instruction `mov s, d` (R73). -/
def pseudoMov (s d : Operand) : Instr := .add s ⟨.immediate, 0⟩ d

/-- The pseudo-instruction `jmp t` (R73). -/
def pseudoJmp (t : Operand) : Instr := .jumpIfTrue ⟨.immediate, 1⟩ t

/-- The pseudo-instruction `nop` (R73): it never jumps. -/
def pseudoNop : Instr := .jumpIfTrue ⟨.immediate, 0⟩ ⟨.immediate, 0⟩

/-! ## Words numbered as the opcode table's bits -/

/-- The Word whose `W`-bit two's complement storage is `b` (R12). -/
def wordOfStorage (W b : Nat) : Int :=
  if b < 2 ^ (W - 1) then (b : Int) else (b : Int) - ((2 ^ W : Nat) : Int)

/-- The `k`-th Word of an instruction whose bits are `w`, counted from bit 0 of the first Word, with every bit at and above
`nbits` zero (log 5). -/
def tableWordAt (W nbits w k : Nat) : Int :=
  wordOfStorage W (w % 2 ^ nbits / 2 ^ (W * k) % 2 ^ W)

/-- The four Words (the longest instruction) of such an instruction. -/
def tableWords (W nbits w : Nat) : List Int :=
  [tableWordAt W nbits w 0, tableWordAt W nbits w 1, tableWordAt W nbits w 2, tableWordAt W nbits w 3]

/-- The instruction the decoder reads from those Words, at the spec's default parameters. -/
def decodeTableWord (nbits w : Nat) : Option Instr :=
  match decode (Config.standard Config.resetCap) (tableWords 64 nbits w) with
  | .ok (i, _) => some i
  | .error _ => none

end Sys2Proof
end

