-- ==== Sys2Proof/Machine/Fetch.lean ====
section
/-! DEFINITION. Phases F and D (spec/40_execution.md R84, R85), and putting an instruction where the next fetch finds it. -/

namespace Sys2Proof.Machine

/-- Phase F (R84). -/
def State.fetch (s : State) : Except Raise Int := s.memRead s.pc none

/-- What memory lists at `a`. Phase O checks a parameter word's bounds before its value is used (`State.checkParam`), so
this read needs no check of its own; past the end of memory it gives 0, which nothing uses (log 7). -/
def State.peek (s : State) (a : Int) : Int := s.mem.get a.toNat

/-- The instruction word at `pc` and the three Words after it. -/
def State.wordsAtPc (s : State) : List Int :=
  [s.peek s.pc, s.peek (s.pc + 1), s.peek (s.pc + 2), s.peek (s.pc + 3)]

/-- Phase D (R85) on the fetched word `w`, with the parameter words that stand after it. -/
def State.decodeFetched (s : State) (w : Int) : Except Raise Instr :=
  decodeWord s.cfg w (s.peek (s.pc + 1)) (s.peek (s.pc + 2)) (s.peek (s.pc + 3))

/-- Phases F and D: the instruction at `pc`, or the fault they raise. -/
def State.fetchDecode (s : State) : Except Raise Instr := do
  let w ← s.fetch
  s.decodeFetched w

/-- The words `ws` stored from address `a` on, those that are in bounds. -/
def State.storeWords (s : State) (a : Int) : List Int → State
  | [] => s
  | v :: ws => if s.inBounds a then (s.store a v).storeWords (a + 1) ws else s.storeWords (a + 1) ws

end Sys2Proof.Machine
end

