-- ==== Sys2Proof/Machine/Step.lean ====
section
/-! DEFINITION. One step (spec/40_execution.md R80 to R83). A step of a machine that is `Ready` is one `Step()` of a run in
progress; a step of a `Waiting` machine is the first of a new `run()`; in a terminal state `run()` does nothing. -/

namespace Sys2Proof.Machine

/-- `Step()`: phases F and D, then phases O and E (R83). A raise in F or D enters its fault (R157). -/
def stepInstr (s : State) : Host.Outcome State Fault Refusal :=
  match s.fetchDecode with
  | .error r => .next (s.faultEntry r)
  | .ok i => exec i s

/-- One step of `run()` (R80): nothing in a terminal state (R81), else `st <- Ready` and `Step()`. -/
def step (s : State) : Host.Outcome State Fault Refusal :=
  if s.st.terminal then .next s else stepInstr s.resume

/-- `s` with an instruction whose bits are `w` (numbered as the opcode table numbers them, log 5) stored at `pc`, and in a
state in which the next step fetches it: `Ready`, with no fault record. It stands for the host's load of a program
(log 4). -/
def State.withFetchWord (s : State) (nbits w : Nat) : State :=
  { s.storeWords s.pc (tableWords s.cfg.wordBits nbits w) with st := .ready, flt := none }

end Sys2Proof.Machine
end

