-- ==== Sys2Proof/Machine/HostInterface.lean ====
section
/-! DEFINITION. The host's operations (spec/60_exceptions.md R165; spec/70_reset_and_hazards.md R180, R181), each a function
on a state between two runs (R28, R166): the model has no host move during a run. `run` is in Run.lean. -/

namespace Sys2Proof.Machine

/-! ## Codes (R29, R150) -/

/-- The numeric code of an execution state (R29). -/
def ExecState.code : ExecState → Nat
  | .ready => 0
  | .waiting => 1
  | .halted => 2
  | .faulted => 3

/-- The numeric code of a fault kind (R150). -/
def faultCode : FaultKind → Nat
  | .invalidOpcode => 1
  | .invalidMode => 2
  | .invalidWriteMode => 3
  | .outOfBounds => 4
  | .overflow => 5

/-- The errors that are not run faults: reported by the operation that caused them, with no effect (R150). -/
inductive HostError where
  | malformedProgram
  | capacityTooSmall
  | capacityTooLarge
  | hostAddressOutOfRange
  deriving DecidableEq, Repr

/-- The numeric code of a host error (R150). -/
def hostErrorCode : HostError → Nat
  | .malformedProgram => 16
  | .capacityTooSmall => 17
  | .capacityTooLarge => 18
  | .hostAddressOutOfRange => 19

/-- The opcode a fault record reports: `w rem 100` of its word (R151). -/
def FaultRecord.opcode (r : FaultRecord) : Option Int := r.word.map opcodeField

/-! ## The text form of a program (R181) -/

/-- Trailing whitespace that is stripped: space, tab, CR, LF (R181). -/
def isSpace (c : Char) : Bool := c = ' ' || c = '\t' || c = '\r' || c = '\n'

/-- The text with all trailing whitespace removed (R181). -/
def stripTrailing (text : List Char) : List Char := (text.reverse.dropWhile isSpace).reverse

/-- The tokens between the commas; an empty text gives one empty token (R181). -/
def splitCommas : List Char → List (List Char)
  | [] => [[]]
  | c :: rest =>
    if c = ',' then [] :: splitCommas rest
    else
      match splitCommas rest with
      | [] => [[c]]
      | tok :: toks => (c :: tok) :: toks

/-- The value of a decimal digit (ASCII `0` to `9`). -/
def digitValue (c : Char) : Option Nat :=
  if 48 ≤ c.toNat ∧ c.toNat ≤ 57 then some (c.toNat - 48) else none

/-- The decimal value of digits read after the number `acc`; none if a character is no digit. -/
def digitsValue (acc : Nat) : List Char → Option Nat
  | [] => some acc
  | c :: rest =>
    match digitValue c with
    | none => none
    | some d => digitsValue (10 * acc + d) rest

/-- The value of `[0-9]+`. -/
def naturalValue : List Char → Option Nat
  | [] => none
  | c :: rest => digitsValue 0 (c :: rest)

/-- The value of a token `[+-]?[0-9]+`; none if it does not match (R181). -/
def tokenValue : List Char → Option Int
  | '+' :: rest => (naturalValue rest).map (fun n : Nat => (n : Int))
  | '-' :: rest => (naturalValue rest).map (fun n : Nat => -(n : Int))
  | tok => (naturalValue tok).map (fun n : Nat => (n : Int))

/-- The Word a token stands for: its value, if that is a Word of width `W` (R181). -/
def tokenWord (W : Nat) (tok : List Char) : Option Int :=
  match tokenValue tok with
  | none => none
  | some v => if isWord W v then some v else none

/-- The Words of all tokens; none if one is malformed. -/
def tokenWords (W : Nat) : List (List Char) → Option (List Int)
  | [] => some []
  | tok :: toks =>
    match tokenWord W tok, tokenWords W toks with
    | some v, some ws => some (v :: ws)
    | _, _ => none

/-- `ParseProgram(text)` (R181). -/
def parseProgram (W : Nat) (text : List Char) : Except HostError (List Int) :=
  match tokenWords W (splitCommas (stripTrailing text)) with
  | some ws => .ok ws
  | none => .error .malformedProgram

/-! ## Construction (R180) -/

/-- The two forms of a program `create` takes (R180): an ASCII text, or a sequence of Words. -/
inductive ProgramSource where
  | text (t : List Char)
  | words (ws : List Int)
  deriving DecidableEq, Repr

/-- The Words of a program in either form (R180). -/
def ProgramSource.toWords (W : Nat) : ProgramSource → Except HostError (List Int)
  | .text t => parseProgram W t
  | .words ws => .ok ws

/-- The reset state with a program image and initial inputs (R34, R180). -/
def State.initial (cfg : Config) (program inputs : List Int) : State :=
  { cfg := cfg, mem := Memory.load 0 program, pc := 0, rb := 0, inputs := inputs, outputs := [],
    st := .ready, flt := none }

/-- `create(program, initial_inputs, capacity)` (R180). The instance's parameters come as `cfg`, whose `cap` is the
capacity argument. Parse errors come before capacity errors. -/
def create (cfg : Config) (program : ProgramSource) (inputs : List Int) : Except HostError State := do
  let ws ← program.toWords cfg.wordBits
  if cfg.cap < ws.length then .error .capacityTooSmall
  else if 2 ^ (cfg.wordBits - 1) < cfg.cap + 4 then .error .capacityTooLarge
  else .ok (State.initial cfg ws inputs)

/-! ## Between runs (R165) -/

/-- `pushInput(v)`: allowed in every state; does not change `st`. -/
def State.pushInput (s : State) (v : Int) : State := { s with inputs := s.inputs ++ [v] }

/-- `popOutput()`: the oldest output and the state without it; none is `Empty`, with no effect. -/
def State.popOutput (s : State) : Option (Int × State) :=
  match s.outputs with
  | [] => none
  | v :: rest => some (v, { s with outputs := rest })

/-- `readOutputs()`: the whole sequence, oldest first. -/
def State.readOutputs (s : State) : List Int := s.outputs

/-- `readState()`: `st`, and `flt` when `Faulted`. -/
def State.readState (s : State) : ExecState × Option FaultRecord :=
  (s.st, if s.st = .faulted then s.flt else none)

/-- `memRead(a)` of the host (R56). -/
def State.hostRead (s : State) (a : Int) : Except HostError Int :=
  if s.inBounds a then .ok (s.mem.get a.toNat) else .error .hostAddressOutOfRange

/-- `memWrite(a, v)` of the host (R56). -/
def State.hostWrite (s : State) (a : Int) (v : Int) : Except HostError State :=
  if s.inBounds a then .ok (s.store a v) else .error .hostAddressOutOfRange

end Sys2Proof.Machine
end

