-- ==== Sys2Proof/Machine/Run.lean ====
section
/-! DEFINITION. The `run` operation (spec/40_execution.md R80), under fuel: a run may never end (R93), and running out of
fuel is "not ended", none of the end states. -/

namespace Sys2Proof.Machine

/-- R80's loop, at most `fuel` steps: the state in which the run ended, or none when it has not ended by then. -/
def runLoop : (fuel : Nat) → State → Option State
  | 0, _ => none
  | fuel + 1, s =>
    match stepInstr s with
    | .next t => if t.st = .ready then runLoop fuel t else some t
    | .fault _ => none
    | .refused _ => none

/-- `run()` (R80): in a terminal state it returns at once (R81), else `st <- Ready` and the loop. -/
def run (fuel : Nat) (s : State) : Option State :=
  if s.st.terminal then some s else runLoop fuel s.resume

end Sys2Proof.Machine
end

