-- ==== Sys2Proof/Safety.lean ====
section
/-! DEFINITION. What a state of a real instance satisfies (`State.Inv`), and what a safe run is, in the terms claims use. -/

namespace Sys2Proof.Machine

/-- Every listed cell is an address of memory holding a Word (R12, R22). -/
abbrev State.memInRange (s : State) : Prop :=
  ∀ c ∈ s.mem, c.1 < s.cfg.cap ∧ isWord s.cfg.wordBits c.2

/-- `pc`, `rb` and every queue element are Words (R23, R24, R26, R27). -/
abbrev State.wordsInRange (s : State) : Prop :=
  isWord s.cfg.wordBits s.pc ∧ isWord s.cfg.wordBits s.rb ∧
    (∀ v ∈ s.inputs, isWord s.cfg.wordBits v) ∧ (∀ v ∈ s.outputs, isWord s.cfg.wordBits v)

/-- The record sets the fields its kind sets, and no others (R30, the table of R150). -/
def FaultRecord.fieldsOfKind (r : FaultRecord) : Bool :=
  match r.kind with
  | .invalidOpcode => r.word.isSome && r.param = none && r.mode = none && r.addr = none
  | .invalidMode => r.word.isSome && r.param.isSome && r.mode.isSome && r.addr = none
  | .invalidWriteMode => r.word.isSome && r.param.isSome && r.mode = some 1 && r.addr = none
  | .outOfBounds => r.word.isSome = r.param.isSome && r.mode = none && r.addr.isSome
  | .overflow => r.word.isSome && r.param = none && r.mode = none && r.addr = none

/-- `flt` is a record exactly when `st = Faulted` (R30); the record has the fields of its kind and the `pc` the machine
stopped at (R157). -/
abbrev State.faultRecordOk (s : State) : Prop :=
  (s.flt = none ↔ s.st ≠ .faulted) ∧ ∀ r ∈ s.flt.toList, r.fieldsOfKind = true ∧ r.pc = s.pc

/-- The invariant of every instance: legal parameters, canonical memory, Words everywhere, a consistent fault record. -/
abbrev State.Inv (s : State) : Prop :=
  s.cfg.valid ∧ s.mem.wf ∧ s.memInRange ∧ s.wordsInRange ∧ s.faultRecordOk

/-- A safe end: the run completed (R91). -/
def State.completed (s : State) : Prop := s.st = .halted

/-- A run that has raised no fault. -/
def State.faultFree (s : State) : Prop := s.st ≠ .faulted

end Sys2Proof.Machine
end

