-- ==== Sys2Proof/Certificates/Slice0/Obligations.lean ====
section
/-! DEFINITION. The statements for the provers (OBLIGATIONS.json), and, first, the terms they are written in: the opcode map
of R62 written out once more from the spec, what a fault entry leaves, and the address an instruction stores to. -/

namespace Sys2Proof.Claims

open Sys2Proof.Machine

/-- The parameter kinds of each opcode, from the table of R62; none for a number that is no opcode. -/
def paramKinds (op : Int) : Option (List OperandKind) :=
  if op = 1 ∨ op = 2 ∨ op = 7 ∨ op = 8 then some [.read, .read, .write]
  else if op = 3 then some [.write]
  else if op = 4 ∨ op = 9 then some [.read]
  else if op = 5 ∨ op = 6 then some [.read, .read]
  else if op = 99 then some []
  else none

/-- The legal opcodes, as R66 lists them. -/
abbrev legalOpcode (op : Int) : Prop := op ∈ [1, 2, 3, 4, 5, 6, 7, 8, 9, 99]

/-- A mode digit that names a mode (R68). -/
abbrev legalModeDigit (d : Int) : Prop := d ∈ [0, 1, 2]

/-- The outcome is the fault entry of R157: `st <- Faulted`, the record written with `pc`, nothing else changed. -/
def entersFault (o : Host.Outcome State Fault Refusal) (s : State) (kind : FaultKind) (word : Option Int)
    (param : Option Nat) (mode : Option Int) (addr : Option Int) : Prop :=
  o = .next { s with
    st := .faulted
    flt := some { kind := kind, pc := s.pc, word := word, param := param, mode := mode, addr := addr } }

/-- Between runs or in one, `run()` executes instructions: `st` is `Ready` or `Waiting` (R80, R81). -/
abbrev active (s : State) : Prop := s.st = .ready ∨ s.st = .waiting

/-- The Word `w` is fetched at `pc` (R84). -/
abbrev fetches (s : State) (w : Int) : Prop := s.inBounds s.pc = true ∧ s.mem.get s.pc.toNat = w

/-- Every Word of memory is as before but the one at `ea`, which is `v`. -/
def wroteOnly (s t : State) (ea : Int) (v : Int) : Prop :=
  ∀ k : Nat, t.mem.get k = if (k : Int) = ea then v else s.mem.get k

/-- The write operand of an instruction. -/
def destination : Instr → Option Operand
  | .add _ _ d => some d
  | .mul _ _ d => some d
  | .input d => some d
  | .output _ => none
  | .jumpIfTrue _ _ => none
  | .jumpIfFalse _ _ => none
  | .lessThan _ _ d => some d
  | .equals _ _ d => some d
  | .adjustRelativeBase _ => none
  | .halt => none

/-- The dereferences of phase O in the order of R88, each with its parameter index: parameter word, then the operand's
address unless the operand is immediate. -/
def dereferences (s : State) (i : Instr) : List (Nat × Int) :=
  i.operands.zipIdx.flatMap fun p =>
    (p.2, s.pc + 1 + (p.2 : Int)) ::
      (if p.1.2.mode = .immediate then [] else [(p.2, s.effectiveAddress p.1.2)])

/-- The first of them that is out of bounds (R154). -/
def firstOutOfBounds (s : State) (i : Instr) : Option (Nat × Int) :=
  (dereferences s i).find? (fun p => !s.inBounds p.2)

/-- The exact integer result of an instruction that `fit` is applied to (R103, R104, R140). -/
def exactResult (s : State) : Instr → Option Int
  | .add a b _ => some (s.operandValue a + s.operandValue b)
  | .mul a b _ => some (s.operandValue a * s.operandValue b)
  | .adjustRelativeBase a => some (s.rb + s.operandValue a)
  | .input _ => none
  | .output _ => none
  | .jumpIfTrue _ _ => none
  | .jumpIfFalse _ _ => none
  | .lessThan _ _ _ => none
  | .equals _ _ _ => none
  | .halt => none

/-- What an arithmetic result leaves (R102): the exact result if it is a Word, else, under `wrap`, its residue in the Word
range (and no value under `fault`). -/
abbrev fittedResult (cfg : Config) (v r : Int) : Prop :=
  (isWord cfg.wordBits v ∧ r = v) ∨
    (¬ isWord cfg.wordBits v ∧ cfg.overflowMode = .wrap ∧
      r = (v + 2 ^ (cfg.wordBits - 1)).fmod (2 ^ cfg.wordBits) - 2 ^ (cfg.wordBits - 1))

/-- The result does not fit and `OVERFLOW_MODE = fault` (R102). -/
abbrev overflows (cfg : Config) (v : Int) : Prop := ¬ isWord cfg.wordBits v ∧ cfg.overflowMode = .fault

/-- `v` is the Word that the instruction stores at its destination when it completes from `s` (R103, R104, R110, R132, R133);
an instruction with no destination stores none. -/
def storedWord (s : State) (v : Int) : Instr → Prop
  | .add a b _ => fittedResult s.cfg (s.operandValue a + s.operandValue b) v
  | .mul a b _ => fittedResult s.cfg (s.operandValue a * s.operandValue b) v
  | .input _ => s.inputs.head? = some v
  | .output _ => False
  | .jumpIfTrue _ _ => False
  | .jumpIfFalse _ _ => False
  | .lessThan a b _ => v = if s.operandValue a < s.operandValue b then 1 else 0
  | .equals a b _ => v = if s.operandValue a = s.operandValue b then 1 else 0
  | .adjustRelativeBase _ => False
  | .halt => False

/-- In every state with this configuration and this memory, a fetch at `ea` gives `v`, as the instruction word (`fetch`) and as
a parameter word (`peek`). -/
def fetchedAs (cfg : Config) (mem : Memory) (ea v : Int) : Prop :=
  ∀ u : State, u.cfg = cfg → u.mem = mem → u.peek ea = v ∧ (u.pc = ea → u.fetch = .ok v)

/-- The operands of a three-operand instruction all resolve (R88). -/
abbrev resolves3 (s : State) (a b d : Operand) : Prop :=
  s.paramsInBounds 3 ∧ s.readable a = true ∧ s.readable b = true ∧ s.writable d = true

/-- A token of decimal digits: at least one (R181). -/
def isNatural (tok : List Char) : Prop := tok ≠ [] ∧ ∀ c ∈ tok, '0' ≤ c ∧ c ≤ '9'

/-- The decimal value of a list of digits. -/
def decimal (tok : List Char) : Int := tok.foldl (fun v c => 10 * v + ((c.toNat : Int) - 48)) 0

/-- `[+-]?[0-9]+` and its value (R181). -/
def tokenHasValue (tok : List Char) (v : Int) : Prop :=
  (isNatural tok ∧ v = decimal tok) ∨
    (∃ ds, tok = '+' :: ds ∧ isNatural ds ∧ v = decimal ds) ∨
    (∃ ds, tok = '-' :: ds ∧ isNatural ds ∧ v = -decimal ds)

end Sys2Proof.Claims

open Sys2Proof Sys2Proof.Machine Sys2Proof.Claims

/-! ## Encoding and decode -/

/-- R74: the twelve worked encodings, under every configuration. -/
def Obligations.WorkedEncodingsDecode : Prop :=
  ∀ cfg : Config,
    decode cfg [1, 9, 10, 3] = .ok (.add ⟨.position, 9⟩ ⟨.position, 10⟩ ⟨.position, 3⟩, []) ∧
    decode cfg [2, 3, 11, 0] = .ok (.mul ⟨.position, 3⟩ ⟨.position, 11⟩ ⟨.position, 0⟩, []) ∧
    decode cfg [3, 9] = .ok (.input ⟨.position, 9⟩, []) ∧
    decode cfg [8, 9, 10, 9] = .ok (.equals ⟨.position, 9⟩ ⟨.position, 10⟩ ⟨.position, 9⟩, []) ∧
    decode cfg [4, 9] = .ok (.output ⟨.position, 9⟩, []) ∧
    decode cfg [109, 1] = .ok (.adjustRelativeBase ⟨.immediate, 1⟩, []) ∧
    decode cfg [204, -1] = .ok (.output ⟨.relative, -1⟩, []) ∧
    decode cfg [1001, 100, 1, 100] = .ok (.add ⟨.position, 100⟩ ⟨.immediate, 1⟩ ⟨.position, 100⟩, []) ∧
    decode cfg [1008, 100, 16, 101] = .ok (.equals ⟨.position, 100⟩ ⟨.immediate, 16⟩ ⟨.position, 101⟩, []) ∧
    decode cfg [1006, 101, 0] = .ok (.jumpIfFalse ⟨.position, 101⟩ ⟨.immediate, 0⟩, []) ∧
    decode cfg [99] = .ok (.halt, []) ∧
    ∀ p q r : Int, decode cfg [11101, p, q, r] =
      .error (.illegal { kind := .invalidWriteMode, param := some 2, mode := some 1 })

/-- R61, R72: decoding the words of a well-formed instruction gives it back, whatever follows it, with every operand at
every value, under every configuration. -/
def Obligations.DecodeOfEncodeIsIdentity : Prop :=
  ∀ (cfg : Config) (i : Instr) (rest : List Int), i.wellFormed cfg.wordBits →
    decode cfg (encode i ++ rest) = .ok (i, rest)

/-- R61, R70: under `reject` each instruction has exactly one spelling: what decodes to `i` is `encode i`. -/
def Obligations.EncodeOfDecodeIsIdentityUnderReject : Prop :=
  ∀ (cfg : Config) (ws rest : List Int) (i : Instr), cfg.excessDigits = .reject →
    decode cfg ws = .ok (i, rest) → ws = encode i ++ rest

/-- R70 (decision D7): under `ignore` digits above the mode digits change nothing: neither an instruction nor a fault. -/
def Obligations.ExcessDigitsAreIgnored : Prop :=
  ∀ (cfg : Config) (w p0 p1 p2 : Int) (ks : List OperandKind) (x : Nat), cfg.excessDigits = .ignore → 0 ≤ w →
    paramKinds (w.tmod 100) = some ks →
    decodeWord cfg (w + (x : Int) * 10 ^ (ks.length + 2)) p0 p1 p2 = decodeWord cfg w p0 p1 p2

/-- R71: which instruction words are legal, and that every other word is one of three faults; a parameter word never makes
an encoding illegal. -/
def Obligations.LegalEncodingsAreExactlyThese : Prop :=
  ∀ (cfg : Config) (w p0 p1 p2 : Int),
    ((∃ i, decodeWord cfg w p0 p1 p2 = .ok i) ↔
      0 ≤ w ∧ ∃ ks, paramKinds (w.tmod 100) = some ks ∧
        (∀ k (h : k < ks.length), legalModeDigit (digit w (k + 2)) ∧ (ks[k] = .write → digit w (k + 2) ≠ 1)) ∧
        (cfg.excessDigits = .reject → w.tdiv (10 ^ (ks.length + 2)) = 0)) ∧
    (∀ i, decodeWord cfg w p0 p1 p2 = .ok i →
      isWord cfg.wordBits p0 → isWord cfg.wordBits p1 → isWord cfg.wordBits p2 → i.wellFormed cfg.wordBits) ∧
    (∀ r, decodeWord cfg w p0 p1 p2 = .error r →
      r.kind ∈ [FaultKind.invalidOpcode, .invalidMode, .invalidWriteMode] ∧
        ∀ q0 q1 q2, decodeWord cfg w q0 q1 q2 = .error r)

/-- R62, R63: the opcode alone gives the parameters, their kinds and the length, `1 + n(op)` Words; an illegal opcode has
none: decode stops at the instruction word, whatever follows it. -/
def Obligations.LengthFromOpcodeAlone : Prop :=
  ∀ (cfg : Config) (w : Int) (ps : List Int),
    (∀ i rest, decode cfg (w :: ps) = .ok (i, rest) →
      paramKinds (w.tmod 100) = some (i.operands.map Prod.fst) ∧
        i.operands.map (fun p => p.2.param) = ps.take i.nparams ∧ rest = ps.drop i.nparams ∧
        ∀ k (h : k < i.operands.length), (i.operands[k].2.mode).digit = digit w (k + 2)) ∧
    (paramKinds (w.tmod 100) = none → decode cfg (w :: ps) = .error (.illegal { kind := .invalidOpcode }))

/-- R66: a fetched word whose opcode is not in the map enters `InvalidOpcode`, and the machine does not go on; the illegal
opcodes include 0, 10 to 98 and every negative word. -/
def Obligations.IllegalOpcodeFaults : Prop :=
  (∀ (s : State) (w : Int), active s → fetches s w → ¬ legalOpcode (w.tmod 100) →
    entersFault (step s) s .invalidOpcode (some w) none none none ∧
      ∀ t, step s = .next t → step t = .next t) ∧
  ∀ w : Int, ¬ legalOpcode (w.tmod 100) ↔ w < 0 ∨ w.tmod 100 = 0 ∨ (10 ≤ w.tmod 100 ∧ w.tmod 100 ≤ 98)

/-- R152: `InvalidMode` is raised for the lowest parameter whose digit is 3 to 9; under `reject`, for the lowest nonzero
digit above the mode digits when those are all legal. -/
def Obligations.LowestIllegalModeFaults : Prop :=
  ∀ (s : State) (w : Int) (ks : List OperandKind), active s → fetches s w → 0 ≤ w → paramKinds (w.tmod 100) = some ks →
    (∀ i < ks.length, ¬ legalModeDigit (digit w (i + 2)) → (∀ j < i, legalModeDigit (digit w (j + 2))) →
      entersFault (step s) s .invalidMode (some w) (some i) (some (digit w (i + 2))) none) ∧
    (s.cfg.excessDigits = .reject →
      (∀ k (h : k < ks.length), legalModeDigit (digit w (k + 2)) ∧ (ks[k] = .write → digit w (k + 2) ≠ 1)) →
      ∀ j, ks.length ≤ j → digit w (j + 2) ≠ 0 → (∀ k, ks.length ≤ k → k < j → digit w (k + 2) = 0) →
        entersFault (step s) s .invalidMode (some w) (some j) (some (digit w (j + 2))) none)

/-- R69, R153: a write operand in immediate mode enters `InvalidWriteMode`: parameter 2 of opcodes 1, 2, 7 and 8, parameter 0
of opcode 3, when no lower parameter has an illegal mode (R156). -/
def Obligations.ImmediateWriteFaults : Prop :=
  ∀ (s : State) (w : Int), active s → fetches s w → 0 ≤ w →
    (w.tmod 100 ∈ [1, 2, 7, 8] → digit w 4 = 1 → legalModeDigit (digit w 2) → legalModeDigit (digit w 3) →
      entersFault (step s) s .invalidWriteMode (some w) (some 2) (some 1) none) ∧
    (w.tmod 100 = 3 → digit w 2 = 1 →
      entersFault (step s) s .invalidWriteMode (some w) (some 0) (some 1) none)

/-! ## Fetch and step -/

/-- R84: the fetch reads the Word at `pc`, and a `pc` outside `[0, CAP)` is caught there: it faults with no word and no
parameter, and does not wrap. -/
def Obligations.FetchOutOfBoundsFaults : Prop :=
  ∀ s : State, active s →
    (s.pc < 0 ∨ (s.cfg.cap : Int) ≤ s.pc →
      entersFault (step s) s .outOfBounds none none none (some s.pc)) ∧
    (0 ≤ s.pc → s.pc < (s.cfg.cap : Int) → s.fetch = .ok (s.mem.get s.pc.toNat))

/-- R80, R83: where the words at `pc` decode to an instruction, a step is `exec` of it with `st <- Ready`; where they
spell none, it enters the decoder's fault; nothing else is added around `exec` (it moves `pc` itself). -/
def Obligations.StepRunsDecodedInstruction : Prop :=
  ∀ s : State, active s → s.inBounds s.pc = true →
    (∀ i rest, decode s.cfg s.wordsAtPc = .ok (i, rest) → step s = exec i { s with st := .ready }) ∧
    (∀ r, decode s.cfg s.wordsAtPc = .error (.illegal r) →
      entersFault (step s) s r.kind (some (s.mem.get s.pc.toNat)) r.param r.mode r.addr)

/-- R65, R86, R87: the three modes of a read operand, and of a write operand. That a write address is checked here, in phase O,
is the spec's decision D8 (R87); that an immediate write operand answers `InvalidWriteMode` here is the model's choice (log
13), for R87 says that mode 1 never reaches this operation. -/
def Obligations.OperandModesResolve : Prop :=
  ∀ (s : State) (i : Nat) (p : Int),
    (s.readOperand i ⟨.position, p⟩ = if 0 ≤ p ∧ p < (s.cfg.cap : Int) then .ok (s.mem.get p.toNat)
      else .error { kind := .outOfBounds, param := some i, addr := some p }) ∧
    s.readOperand i ⟨.immediate, p⟩ = .ok p ∧
    (s.readOperand i ⟨.relative, p⟩ = if 0 ≤ s.rb + p ∧ s.rb + p < (s.cfg.cap : Int) then .ok (s.mem.get (s.rb + p).toNat)
      else .error { kind := .outOfBounds, param := some i, addr := some (s.rb + p) }) ∧
    (s.writeAddress i ⟨.position, p⟩ = if 0 ≤ p ∧ p < (s.cfg.cap : Int) then .ok p
      else .error { kind := .outOfBounds, param := some i, addr := some p }) ∧
    s.writeAddress i ⟨.immediate, p⟩ = .error { kind := .invalidWriteMode, param := some i, mode := some 1 } ∧
    (s.writeAddress i ⟨.relative, p⟩ = if 0 ≤ s.rb + p ∧ s.rb + p < (s.cfg.cap : Int) then .ok (s.rb + p)
      else .error { kind := .outOfBounds, param := some i, addr := some (s.rb + p) })

/-! ## What each instruction does, and what it leaves unchanged -/

/-- R100, R102, R103: `add` writes the fitted sum to its destination and advances by 4, leaving every other Word and field;
a sum that does not fit under `fault` enters `Overflow` instead. -/
def Obligations.AddStoresFittedSum : Prop :=
  ∀ (s : State) (a b d : Operand), resolves3 s a b d →
    (∀ r, fittedResult s.cfg (s.operandValue a + s.operandValue b) r →
      ∃ t, exec (.add a b d) s = .next t ∧ wroteOnly s t (s.effectiveAddress d) r ∧
        t = { s with mem := t.mem, pc := s.pc + 4 }) ∧
    (overflows s.cfg (s.operandValue a + s.operandValue b) →
      entersFault (exec (.add a b d) s) s .overflow s.wordAtPc none none none)

/-- R101, R102, R104: `mul`, as `add` with the product. -/
def Obligations.MulStoresFittedProduct : Prop :=
  ∀ (s : State) (a b d : Operand), resolves3 s a b d →
    (∀ r, fittedResult s.cfg (s.operandValue a * s.operandValue b) r →
      ∃ t, exec (.mul a b d) s = .next t ∧ wroteOnly s t (s.effectiveAddress d) r ∧
        t = { s with mem := t.mem, pc := s.pc + 4 }) ∧
    (overflows s.cfg (s.operandValue a * s.operandValue b) →
      entersFault (exec (.mul a b d) s) s .overflow s.wordAtPc none none none)

/-- R130, R132: `less-than` writes 1 or 0 by the signed comparison and advances by 4; it never overflows. -/
def Obligations.LessThanStoresOneOrZero : Prop :=
  ∀ (s : State) (a b d : Operand), resolves3 s a b d →
    ∃ t, exec (.lessThan a b d) s = .next t ∧
      (s.operandValue a < s.operandValue b → wroteOnly s t (s.effectiveAddress d) 1) ∧
      (s.operandValue b ≤ s.operandValue a → wroteOnly s t (s.effectiveAddress d) 0) ∧
      t = { s with mem := t.mem, pc := s.pc + 4 }

/-- R131, R133: `equals` writes 1 or 0 by equality and advances by 4. -/
def Obligations.EqualsStoresOneOrZero : Prop :=
  ∀ (s : State) (a b d : Operand), resolves3 s a b d →
    ∃ t, exec (.equals a b d) s = .next t ∧
      (s.operandValue a = s.operandValue b → wroteOnly s t (s.effectiveAddress d) 1) ∧
      (s.operandValue a ≠ s.operandValue b → wroteOnly s t (s.effectiveAddress d) 0) ∧
      t = { s with mem := t.mem, pc := s.pc + 4 }

/-- R110: `input` writes the front of `inputs`, which it removes, and advances by 2; with `inputs` empty it waits and
nothing but `st` changes; a bad destination faults even then (decision D9). -/
def Obligations.InputStoresFrontOrWaits : Prop :=
  ∀ (s : State) (d : Operand), d.mode ≠ .immediate →
    (s.paramsInBounds 1 → s.writable d = true → ∀ v vs, s.inputs = v :: vs →
      ∃ t, exec (.input d) s = .next t ∧ wroteOnly s t (s.effectiveAddress d) v ∧
        t = { s with mem := t.mem, pc := s.pc + 2, inputs := vs }) ∧
    (s.paramsInBounds 1 → s.writable d = true → s.inputs = [] →
      exec (.input d) s = .next { s with st := .waiting }) ∧
    (s.paramsInBounds 1 → s.inBounds (s.effectiveAddress d) = false →
      entersFault (exec (.input d) s) s .outOfBounds s.wordAtPc (some 0) none (some (s.effectiveAddress d)))

/-- R111: `output` appends its operand to `outputs` and advances by 2, whatever `outputs` holds; nothing else changes. -/
def Obligations.OutputAppends : Prop :=
  ∀ (s : State) (a : Operand), s.paramsInBounds 1 → s.readable a = true →
    exec (.output a) s = .next { s with outputs := s.outputs ++ [s.operandValue a], pc := s.pc + 2 }

/-- R120 to R122: `jump-if-true` jumps to its target operand when its condition is not 0, a negative one included, and
`jump-if-false` when it is 0; otherwise `pc` advances by 3. No memory, queue, `rb` or flag changes. -/
def Obligations.JumpsTestForZero : Prop :=
  ∀ (s : State) (a b : Operand), s.paramsInBounds 2 → s.readable a = true → s.readable b = true →
    exec (.jumpIfTrue a b) s =
      .next { s with pc := if s.operandValue a ≠ 0 then s.operandValue b else s.pc + 3 } ∧
    exec (.jumpIfFalse a b) s =
      .next { s with pc := if s.operandValue a = 0 then s.operandValue b else s.pc + 3 }

/-- R123 (decision D12): a taken jump accepts any target; one outside `[0, CAP)` faults at the next fetch, whose record has
the target as `pc` and as address. -/
def Obligations.JumpTargetIsCheckedAtNextFetch : Prop :=
  ∀ (s : State) (a b : Operand) (i : Instr), active s → s.inBounds s.pc = true →
    s.fetchDecode = .ok i →
    (i = .jumpIfTrue a b ∧ s.operandValue a ≠ 0 ∨ i = .jumpIfFalse a b ∧ s.operandValue a = 0) →
    s.paramsInBounds 2 → s.readable a = true → s.readable b = true → s.inBounds (s.operandValue b) = false →
    ∃ t, step s = .next t ∧ t.pc = s.operandValue b ∧ t.st = .ready ∧
      entersFault (step t) t .outOfBounds none none none (some (s.operandValue b))

/-- R140: `adjust-relative-base` sets `rb` to the fitted sum of the old `rb` and its operand, read with the old `rb`, and
advances by 2; nothing else changes; a sum that does not fit under `fault` enters `Overflow`. -/
def Obligations.AdjustRelativeBaseAddsToRb : Prop :=
  ∀ (s : State) (a : Operand), s.paramsInBounds 1 → s.readable a = true →
    (∀ r, fittedResult s.cfg (s.rb + s.operandValue a) r →
      exec (.adjustRelativeBase a) s = .next { s with rb := r, pc := s.pc + 2 }) ∧
    (overflows s.cfg (s.rb + s.operandValue a) →
      entersFault (exec (.adjustRelativeBase a) s) s .overflow s.wordAtPc none none none)

/-- R141 (decision D13): `halt` sets `st` to `Halted` and changes nothing else, `pc` included; every later step does
nothing. -/
def Obligations.HaltStopsForGood : Prop :=
  ∀ s : State, exec .halt s = .next { s with st := .halted } ∧
    ∀ n, Host.Core.run core n { s with st := .halted } = .next { s with st := .halted }

/-- R102: what `fit` answers is a Word, congruent to the exact result modulo `2^W`, and under `fault` it is the exact
result. -/
def Obligations.FitAnswersACongruentWord : Prop :=
  ∀ (cfg : Config) (v : Int) (r : Int), cfg.valid → fit cfg v = .ok r →
    isWord cfg.wordBits r ∧ (2 ^ cfg.wordBits : Int) ∣ r - v ∧ (cfg.overflowMode = .fault → r = v)

/-! ## Memory -/

/-- R43, R44: `MemWrite` replaces one whole Word and a later `MemRead` of it gives it, every other address reading as
before; out of bounds both raise `OutOfBounds`; of the instructions only opcodes 1, 2, 3, 7 and 8 write memory, one Word,
at their destination. -/
def Obligations.MemoryReadsTheLatestWrite : Prop :=
  (∀ (s : State) (a : Int) (v : Int) (p : Option Nat),
    (0 ≤ a → a < (s.cfg.cap : Int) → ∃ t, s.memWrite a v p = .ok t ∧ t = { s with mem := t.mem } ∧
      ∀ (b : Int) (q : Option Nat), t.memRead b q = if b = a then .ok v else s.memRead b q) ∧
    (a < 0 ∨ (s.cfg.cap : Int) ≤ a →
      s.memWrite a v p = .error { kind := .outOfBounds, param := p, addr := some a } ∧
        s.memRead a p = .error { kind := .outOfBounds, param := p, addr := some a })) ∧
  ∀ (i : Instr) (s t : State), exec i s = .next t →
    (destination i = none → t.mem = s.mem) ∧
    ∀ d, destination i = some d → ∀ k : Nat, (k : Int) ≠ s.effectiveAddress d → t.mem.get k = s.mem.get k

/-- R53, R54 (decision D23): a store, by an instruction or by the host, is seen by the next fetch of its address with no fence;
and, wherever it lands, the instruction's own words included, the instruction stores the result of the operands it was
fetched with and advances by its own length. -/
def Obligations.StoreIsSeenByTheNextFetch : Prop :=
  (∀ (s t : State) (i : Instr) (d : Operand), active s → s.fetchDecode = .ok i → destination i = some d →
    step s = .next t → t.st = .ready →
    t.pc = s.pc + 1 + (i.nparams : Int) ∧
      ∃ v, storedWord s v i ∧ fetchedAs t.cfg t.mem (s.effectiveAddress d) v) ∧
  ∀ (s t : State) (a v : Int), s.hostWrite a v = .ok t → fetchedAs t.cfg t.mem a v

/-! ## Faults -/

/-- R154: `OutOfBounds` is raised by the first dereference out of bounds: the fetch, then, parameter by parameter, the
parameter word and the operand's address; and by nothing else. -/
def Obligations.OutOfBoundsIsTheFirstDereference : Prop :=
  (∀ s : State, active s → s.inBounds s.pc = false →
    entersFault (step s) s .outOfBounds none none none (some s.pc)) ∧
  ∀ (i : Instr) (s : State), i.wellFormed s.cfg.wordBits →
    (∀ k a, firstOutOfBounds s i = some (k, a) →
      entersFault (exec i s) s .outOfBounds s.wordAtPc (some k) none (some a)) ∧
    (firstOutOfBounds s i = none → ∀ t, exec i s = .next t →
      t.flt = s.flt ∨ ∃ r, t.flt = some r ∧ r.kind = .overflow)

/-- R155 (decision D4): only `add`, `mul` and `adjust-relative-base` overflow, only under `fault`, and only when the exact
result is no Word. -/
def Obligations.OverflowOnlyFromArithmetic : Prop :=
  ∀ (i : Instr) (s t : State) (r : FaultRecord), s.flt = none → exec i s = .next t → t.flt = some r → r.kind = .overflow →
    s.cfg.overflowMode = .fault ∧ ∃ v, exactResult s i = some v ∧ ¬ isWord s.cfg.wordBits v

/-- R157, R158: a step that faults changes `st` and `flt` and nothing else, and the record names this instruction: its `pc`
and the word fetched there, or no word exactly when the fetch itself was out of bounds (R30). -/
def Obligations.FaultsArePrecise : Prop :=
  ∀ s t : State, active s → step s = .next t → t.st = .faulted →
    ∃ r, t = { s with st := .faulted, flt := some r } ∧ r.pc = s.pc ∧ r.fieldsOfKind = true ∧
      ∀ w, r.word = some w ↔ fetches s w

/-! ## Rules about the whole machine -/

/-- R25, R89: `rb` is written only by opcode 9; `pc` is left, advanced by the instruction's length, or set to a jump's
target operand; the configuration never changes (R21). -/
def Obligations.RegistersAreWrittenOnlyByTheirOpcodes : Prop :=
  ∀ (i : Instr) (s t : State), exec i s = .next t →
    t.cfg = s.cfg ∧
    (t.rb = s.rb ∨ ∃ a, i = .adjustRelativeBase a ∧ fittedResult s.cfg (s.rb + s.operandValue a) t.rb) ∧
    (t.pc = s.pc ∨ t.pc = s.pc + 1 + (i.nparams : Int) ∨
      ∃ a b, (i = .jumpIfTrue a b ∨ i = .jumpIfFalse a b) ∧ t.pc = s.operandValue b) ∧
    (t.pc = s.pc → t.st = .ready → ∃ a b, i = .jumpIfTrue a b ∨ i = .jumpIfFalse a b)

/-- R112: only opcode 3 takes from `inputs`, its front, which goes to its destination; only opcode 4 adds to `outputs`, at
its back, and always can; the machine never reads `outputs`. -/
def Obligations.QueuesAreStrictFifos : Prop :=
  ∀ (i : Instr) (s t : State), exec i s = .next t →
    (t.inputs = s.inputs ∨
      ∃ d v, i = .input d ∧ s.inputs = v :: t.inputs ∧ t.mem.get (s.effectiveAddress d).toNat = v) ∧
    (t.outputs = s.outputs ∨ ∃ a, i = .output a ∧ t.outputs = s.outputs ++ [s.operandValue a]) ∧
    (∀ a, i = .output a → s.paramsInBounds 1 → s.readable a = true →
      t.outputs = s.outputs ++ [s.operandValue a] ∧ t.st = s.st) ∧
    ∀ os : List Int, exec i { s with outputs := os } = .next { t with outputs := os ++ t.outputs.drop s.outputs.length }

/-- R96, R110: `Waiting` is entered only by an input instruction that finds `inputs` empty, and then nothing else changes; an
output never suspends. That the input's operand must resolve first, so that a bad destination faults and does not wait, is the
spec's decision D9 (R110). -/
def Obligations.OnlyStarvedInputSuspends : Prop :=
  ∀ (i : Instr) (s t : State), s.st = .ready → exec i s = .next t →
    (t.st = .waiting ↔ ∃ d, i = .input d ∧ s.inputs = [] ∧ s.paramsInBounds 1 ∧ s.writable d = true) ∧
    (t.st = .waiting → t = { s with st := .waiting }) ∧
    ∀ a, i = .output a → t.st = .ready ∨ t.st = .faulted

/-- R160: a suspension changes nothing but `st`; a step with nothing pushed suspends again in the same state; and after a
push the retried input instruction takes the pushed Word. -/
def Obligations.SuspensionReturnsByRetry : Prop :=
  ∀ s t : State, active s → step s = .next t → t.st = .waiting →
    t = { s with st := .waiting } ∧ step t = .next t ∧
      ∃ d, t.fetchDecode = .ok (.input d) ∧
        ∀ v, ∃ u, step (t.pushInput v) = .next u ∧ wroteOnly t u (t.effectiveAddress d) v ∧
          u = { t with mem := u.mem, pc := t.pc + 2, st := .ready }

/-- R81 (decision D14): a terminal state never changes, however many steps or runs follow. -/
def Obligations.TerminalStatesNeverChange : Prop :=
  ∀ s : State, s.st = .halted ∨ s.st = .faulted →
    (∀ n, Host.Core.run core n s = .next s) ∧ ∀ n, run n s = some s

/-- R82: a step executes the one instruction at `pc` and has one of four outcomes: it completes; a starved input waits;
opcode 99 halts; or a fault is raised. In the last three nothing changes but `st` and the fault record. No instruction is
refused, and none stops the machine outside its own states. -/
def Obligations.StepHasFourOutcomes : Prop :=
  (∀ s : State, active s → ∃ t, step s = .next t ∧
    ((∃ i, s.fetchDecode = .ok i ∧ exec i { s with st := .ready } = .next t ∧ t.st = .ready) ∨
      (∃ d, s.fetchDecode = .ok (.input d) ∧ s.inputs = [] ∧ t = { s with st := .waiting }) ∨
      (s.fetchDecode = .ok .halt ∧ t = { s with st := .halted }) ∨
      ∃ r, t = { s with st := .faulted, flt := some r })) ∧
  ∀ (i : Instr) (s : State), ∃ t, exec i s = .next t

/-- R91: where `run` ends, and what stands at `pc` then: the starved input instruction, the halt, or the fault's place. -/
def Obligations.RunEndsWaitingHaltedOrFaulted : Prop :=
  ∀ (n : Nat) (s t : State), active s → run n s = some t →
    (t.st = .waiting ∧ t.inputs = [] ∧ ∃ d, t.fetchDecode = .ok (.input d)) ∨
    (t.st = .halted ∧ t.fetchDecode = .ok .halt) ∨
    (t.st = .faulted ∧ ∃ r, t.flt = some r ∧ r.pc = t.pc)

/-- R80: `run` is the iteration of `step` up to the first state that is not `Ready`. -/
def Obligations.RunIsIteratedStep : Prop :=
  ∀ (n : Nat) (s t : State), active s →
    (run n s = some t ↔
      ∃ k, 0 < k ∧ k ≤ n ∧ Host.Core.run core k s = .next t ∧ t.st ≠ .ready ∧
        ∀ j u, 0 < j → j < k → Host.Core.run core j s = .next u → u.st = .ready)

/-- R93: fuel only bounds the wait: a run that has ended has ended in the same state under any greater fuel. -/
def Obligations.FuelOnlyBoundsTheWait : Prop :=
  ∀ (n k : Nat) (s t : State), run n s = some t → run (n + k) s = some t

/-- R92: the outcome of a step is a function of the configuration, `mem`, `pc`, `rb` and the front of `inputs` alone: two
states that agree on those step alike, and append the same Words to `outputs`. -/
def Obligations.StepIsDeterminedByWhatItReads : Prop :=
  ∀ s1 s2 : State, active s1 → active s2 → s1.cfg = s2.cfg → s1.mem = s2.mem → s1.pc = s2.pc → s1.rb = s2.rb →
    s1.inputs.head? = s2.inputs.head? →
    ∃ t1 t2, step s1 = .next t1 ∧ step s2 = .next t2 ∧
      t1.mem = t2.mem ∧ t1.pc = t2.pc ∧ t1.rb = t2.rb ∧ t1.st = t2.st ∧ (t1.st = .faulted → t1.flt = t2.flt) ∧
      ∃ (k : Nat) (out : List Int), t1.inputs = s1.inputs.drop k ∧ t2.inputs = s2.inputs.drop k ∧
        t1.outputs = s1.outputs ++ out ∧ t2.outputs = s2.outputs ++ out

/-! ## The invariant -/

/-- Every step keeps the invariant: legal parameters, canonical memory inside `[0, CAP)`, Words everywhere, and a fault
record exactly when `Faulted`, with its kind's fields and the machine's `pc`. -/
def Obligations.StepKeepsInvariant : Prop :=
  ∀ s t : State, s.Inv → step s = .next t → t.Inv

/-- The invariant holds at reset. -/
def Obligations.ResetMeetsInvariant : Prop := State.reset.Inv

/-- `create` establishes the invariant (a program given as Words, and the inputs, being Words). -/
def Obligations.CreateEstablishesInvariant : Prop :=
  ∀ (cfg : Config) (p : ProgramSource) (ins : List Int) (s : State), 64 ≤ cfg.wordBits →
    (∀ ws, p = .words ws → ∀ v ∈ ws, isWord cfg.wordBits v) → (∀ v ∈ ins, isWord cfg.wordBits v) →
    create cfg p ins = .ok s → s.Inv

/-- The host's operations keep the invariant. -/
def Obligations.HostOperationsKeepInvariant : Prop :=
  ∀ (s : State) (a : Int) (v : Int), s.Inv → isWord s.cfg.wordBits v →
    (s.pushInput v).Inv ∧ (∀ x t, s.popOutput = some (x, t) → t.Inv ∧ isWord s.cfg.wordBits x) ∧
      ∀ t, s.hostWrite a v = .ok t → t.Inv

/-! ## Construction and the host -/

/-- R34: the state after `create` succeeds, row by row. -/
def Obligations.CreateBuildsTheResetState : Prop :=
  ∀ (cfg : Config) (p : ProgramSource) (ins : List Int) (s : State), create cfg p ins = .ok s →
    ∃ ws, p.toWords cfg.wordBits = .ok ws ∧ (∀ k (h : k < ws.length), s.mem.get k = ws[k]) ∧
      (∀ k, ws.length ≤ k → s.mem.get k = 0) ∧ s.pc = 0 ∧ s.rb = 0 ∧ s.inputs = ins ∧ s.outputs = [] ∧ s.st = .ready ∧ s.flt = none ∧ s.cfg = cfg

/-- R180 (decisions D5, D26, D28): `create` fails exactly on a malformed text, then a capacity below the program's length,
then one above `2^(W-1) - 4`; a text that parses is loaded as its Words. -/
def Obligations.CreateErrorsInOrder : Prop :=
  ∀ (cfg : Config) (text : List Char) (ws ins : List Int),
    (parseProgram cfg.wordBits text = .error .malformedProgram →
      create cfg (.text text) ins = .error .malformedProgram) ∧
    (parseProgram cfg.wordBits text = .ok ws → create cfg (.text text) ins = create cfg (.words ws) ins) ∧
    (create cfg (.words ws) ins = .error .capacityTooSmall ↔ cfg.cap < ws.length) ∧
    (create cfg (.words ws) ins = .error .capacityTooLarge ↔
      ws.length ≤ cfg.cap ∧ (2 : Int) ^ (cfg.wordBits - 1) - 4 < (cfg.cap : Int)) ∧
    ((∃ s, create cfg (.words ws) ins = .ok s) ↔
      ws.length ≤ cfg.cap ∧ (cfg.cap : Int) ≤ (2 : Int) ^ (cfg.wordBits - 1) - 4)

/-- R181 (decision D17): a text parses to `ws` exactly when, its trailing whitespace removed, it is tokens `[+-]?[0-9]+`
between single commas whose values are the Words `ws`. -/
def Obligations.ParseProgramFollowsTheGrammar : Prop :=
  ∀ (W : Nat) (text : List Char) (ws : List Int),
    parseProgram W text = .ok ws ↔
      ∃ (toks : List (List Char)) (tail : List Char),
        toks ≠ [] ∧ text = List.intercalate [','] toks ++ tail ∧ (∀ c ∈ tail, c ∈ [' ', '\t', '\r', '\n']) ∧
          List.Forall₂ (fun tok v => tokenHasValue tok v ∧ isWord W v) toks ws

/-- R165 (decisions D15, D16): what each host operation does to the state, and that it does nothing else. -/
def Obligations.HostOperationsDoOnlyTheirPart : Prop :=
  ∀ (s : State) (a : Int) (v x : Int) (xs : List Int),
    s.pushInput v = { s with inputs := s.inputs ++ [v] } ∧
    (s.outputs = x :: xs → s.popOutput = some (x, { s with outputs := xs })) ∧
    (s.outputs = [] → s.popOutput = none) ∧
    (0 ≤ a → a < (s.cfg.cap : Int) → ∃ t, s.hostWrite a v = .ok t ∧ wroteOnly s t a v ∧ t = { s with mem := t.mem } ∧
      t.hostRead a = .ok v) ∧
    (a < 0 ∨ (s.cfg.cap : Int) ≤ a →
      s.hostWrite a v = .error .hostAddressOutOfRange ∧ s.hostRead a = .error .hostAddressOutOfRange) ∧
    (s.st ≠ .faulted → s.readState = (s.st, none)) ∧ (s.st = .faulted → s.readState = (s.st, s.flt)) ∧
    s.readOutputs = s.outputs
end

