-- ==== Sys2Proof/Laws/Alu.lean ====
section
/-! SUPPORT. The ALU: `fit` in every case, and that the wrapped result is a Word (R102). -/

namespace Sys2Proof.Machine

@[simp] theorem fit_of_isWord (cfg : Config) (v : Int) (h : isWord cfg.wordBits v) : fit cfg v = .ok v := by
  simp only [fit, if_pos h]

theorem fit_of_not_isWord (cfg : Config) (v : Int) (h : ¬ isWord cfg.wordBits v) :
    fit cfg v = match cfg.overflowMode with
      | .fault => .error { kind := .overflow }
      | .wrap => .ok (wrapWord cfg.wordBits v) := by
  cases hm : cfg.overflowMode <;> simp only [fit, if_neg h, hm]

/-- A fault of `fit` is `Overflow`, of a value that is no Word, under `OVERFLOW_MODE = fault`. -/
theorem fit_error (cfg : Config) (v : Int) (e : Raise) (h : fit cfg v = .error e) :
    e = { kind := .overflow } ∧ ¬ isWord cfg.wordBits v ∧ cfg.overflowMode = .fault := by
  by_cases hv : isWord cfg.wordBits v
  · rw [fit_of_isWord cfg v hv] at h; cases h
  · rw [fit_of_not_isWord cfg v hv] at h
    cases hm : cfg.overflowMode
    · rw [hm] at h; cases h; exact ⟨rfl, hv, rfl⟩
    · rw [hm] at h; cases h

theorem two_pow_half (W : Nat) (h : 1 ≤ W) : 2 ^ W = 2 * 2 ^ (W - 1) := by
  obtain ⟨n, rfl⟩ := Nat.exists_eq_add_of_le h
  simp [Nat.pow_succ, Nat.add_comm 1 n, Nat.mul_comm]

/-- The wrap formula lands in the Word range. -/
theorem isWord_wrapWord (W : Nat) (v : Int) (h : 1 ≤ W) : isWord W (wrapWord W v) := by
  have hp : (0 : Int) < ((2 ^ W : Nat) : Int) := by positivity
  have h2 : ((2 ^ W : Nat) : Int) = 2 * ((2 ^ (W - 1) : Nat) : Int) := by exact_mod_cast two_pow_half W h
  have h0 := Int.fmod_nonneg_of_pos (v + ((2 ^ (W - 1) : Nat) : Int)) hp
  have h1 := Int.fmod_lt_of_pos (v + ((2 ^ (W - 1) : Nat) : Int)) hp
  unfold isWord minWord maxWord wrapWord
  omega

/-- What `fit` answers is a Word. -/
theorem isWord_of_fit (cfg : Config) (v : Int) (r : Int) (hW : 1 ≤ cfg.wordBits) (h : fit cfg v = .ok r) :
    isWord cfg.wordBits r := by
  by_cases hv : isWord cfg.wordBits v
  · rw [fit_of_isWord cfg v hv] at h; cases h; exact hv
  · rw [fit_of_not_isWord cfg v hv] at h
    cases hm : cfg.overflowMode <;> rw [hm] at h <;> cases h
    exact isWord_wrapWord _ _ hW

/-- A small value is a Word at every legal width. -/
theorem isWord_small (cfg : Config) (hc : cfg.valid) (v : Int) (h : -1000000 ≤ v ∧ v ≤ 1000000) :
    isWord cfg.wordBits v := by
  have h63 : 2 ^ 63 ≤ 2 ^ (cfg.wordBits - 1) := Nat.pow_le_pow_right (by norm_num) (by have := hc.1; omega)
  have : ((2 : Int) ^ 63) ≤ ((2 ^ (cfg.wordBits - 1) : Nat) : Int) := by exact_mod_cast h63
  unfold isWord minWord maxWord
  omega

/-- An address up to four past the end of memory is a Word (R89). -/
theorem isWord_near_cap (cfg : Config) (hc : cfg.valid) (v : Int) (h : 0 ≤ v ∧ v < (cfg.cap : Int) + 4) :
    isWord cfg.wordBits v := by
  have : (cfg.cap : Int) + 4 ≤ ((2 ^ (cfg.wordBits - 1) : Nat) : Int) := by exact_mod_cast hc.2
  unfold isWord minWord maxWord
  omega

theorem aluLt_cases (a b : Int) : aluLt a b = 0 ∨ aluLt a b = 1 := by
  unfold aluLt; split <;> simp

theorem aluEq_cases (a b : Int) : aluEq a b = 0 ∨ aluEq a b = 1 := by
  unfold aluEq; split <;> simp

@[simp] theorem zeroTest_eq_true (a : Int) : zeroTest a = true ↔ a = 0 := by simp [zeroTest]

@[simp] theorem zeroTest_eq_false (a : Int) : zeroTest a = false ↔ a ≠ 0 := by simp [zeroTest]

end Sys2Proof.Machine
end

