-- ==== Sys2Proof/Laws/Memory.lean ====
section
/-! SUPPORT. The laws of memory: read after write, and that every memory operation keeps the canonical form. -/

namespace Sys2Proof.Machine

/-! ## Reading after an update -/

theorem Memory.get_filter_ne (m : Memory) (a b : Nat) :
    Memory.get (m.filter (fun c => c.1 ≠ a)) b = if b = a then 0 else Memory.get m b := by
  induction m with
  | nil => simp [Memory.get]
  | cons c m ih =>
    obtain ⟨k, v⟩ := c
    by_cases hk : k = a
    · subst hk
      by_cases hb : b = k <;> simp_all [Memory.get, eq_comm]
    · by_cases hb : b = a
      · subst hb; simp_all [Memory.get]
      · by_cases hkb : k = b <;> simp_all [Memory.get]

theorem Memory.get_insert (m : Memory) (a b : Nat) (v : Int) (h : ∀ c ∈ m, c.1 ≠ a) :
    Memory.get (Memory.insert m a v) b = if b = a then v else Memory.get m b := by
  induction m with
  | nil => simp [Memory.get, Memory.insert, eq_comm]
  | cons c m ih =>
    obtain ⟨k, x⟩ := c
    have hk : k ≠ a := h (k, x) (by simp)
    have ih := ih (fun c hc => h c (by simp [hc]))
    by_cases hlt : a < k
    · simp [Memory.insert, hlt, Memory.get, eq_comm]
    · by_cases hkb : k = b
      · subst hkb; simp [Memory.insert, hlt, Memory.get, hk]
      · simp [Memory.insert, hlt, Memory.get, hkb, ih]

/-- Read after write: the written address gives the written Word, every other address what it gave before (R44). -/
@[simp] theorem Memory.get_set (m : Memory) (a b : Nat) (v : Int) :
    Memory.get (Memory.set m a v) b = if b = a then v else Memory.get m b := by
  unfold Memory.set
  by_cases hv : v = 0
  · simp only [hv, if_true]
    exact Memory.get_filter_ne m a b
  · simp only [hv, if_false]
    rw [Memory.get_insert _ _ _ _ (by simp), Memory.get_filter_ne]
    split <;> rfl

theorem Memory.get_eq_zero_of_forall_ne (m : Memory) (a : Nat) (h : ∀ c ∈ m, c.1 ≠ a) : Memory.get m a = 0 := by
  induction m with
  | nil => rfl
  | cons c m ih =>
    obtain ⟨k, v⟩ := c
    have hk : k ≠ a := h (k, v) (by simp)
    simp [Memory.get, hk, ih (fun c hc => h c (by simp [hc]))]

/-- What a read gives is 0 or a listed Word. -/
theorem Memory.get_cases (m : Memory) (a : Nat) : Memory.get m a = 0 ∨ (a, Memory.get m a) ∈ m := by
  induction m with
  | nil => simp [Memory.get]
  | cons c m ih =>
    obtain ⟨k, v⟩ := c
    by_cases hk : k = a
    · simp [Memory.get, hk]
    · simp only [Memory.get, hk, if_false]
      rcases ih with h | h
      · exact .inl h
      · exact .inr (List.mem_cons_of_mem _ h)

/-! ## What an update lists, and the canonical form -/

theorem Memory.mem_insert (m : Memory) (a : Nat) (v : Int) (c : Nat × Int) :
    c ∈ Memory.insert m a v ↔ c = (a, v) ∨ c ∈ m := by
  induction m with
  | nil => simp [Memory.insert]
  | cons d m ih =>
    obtain ⟨k, x⟩ := d
    by_cases hlt : a < k
    · simp [Memory.insert, hlt]
    · simp [Memory.insert, hlt, ih]
      tauto

theorem Memory.mem_set (m : Memory) (a : Nat) (v : Int) (c : Nat × Int) (h : c ∈ Memory.set m a v) :
    c = (a, v) ∨ c ∈ m := by
  unfold Memory.set at h
  by_cases hv : v = 0
  · simp only [hv, if_true] at h
    exact .inr (List.mem_filter.mp h).1
  · simp only [hv, if_false, Memory.mem_insert] at h
    exact h.imp id (fun h => (List.mem_filter.mp h).1)

theorem Memory.pairwise_insert (m : Memory) (a : Nat) (v : Int)
    (hm : (m.map Prod.fst).Pairwise (· < ·)) (h : ∀ c ∈ m, c.1 ≠ a) :
    ((Memory.insert m a v).map Prod.fst).Pairwise (· < ·) := by
  induction m with
  | nil => simp [Memory.insert]
  | cons d m ih =>
    obtain ⟨k, x⟩ := d
    simp only [List.map_cons, List.pairwise_cons] at hm
    have hk : k ≠ a := h (k, x) (by simp)
    have ih := ih hm.2 (fun c hc => h c (by simp [hc]))
    by_cases hlt : a < k
    · simp only [Memory.insert, hlt, if_true, List.map_cons, List.pairwise_cons]
      refine ⟨?_, hm⟩
      intro b hb
      rcases List.mem_cons.mp hb with rfl | hb
      · exact hlt
      · exact lt_trans hlt (hm.1 b hb)
    · simp only [Memory.insert, hlt, if_false, List.map_cons, List.pairwise_cons]
      refine ⟨?_, ih⟩
      intro b hb
      obtain ⟨c, hc, rfl⟩ := List.mem_map.mp hb
      rcases (Memory.mem_insert m a v c).mp hc with rfl | hc
      · simp only; omega
      · exact hm.1 c.1 (List.mem_map.mpr ⟨c, hc, rfl⟩)

/-- A write keeps the canonical form. -/
theorem Memory.wf_set (m : Memory) (a : Nat) (v : Int) (hm : m.wf) : (Memory.set m a v).wf := by
  have hf : ((m.filter (fun c => c.1 ≠ a)).map Prod.fst).Pairwise (· < ·) :=
    hm.1.sublist ((List.filter_sublist).map _)
  have hz : ∀ c ∈ m.filter (fun c => c.1 ≠ a), c.2 ≠ 0 := fun c hc => hm.2 c (List.mem_filter.mp hc).1
  unfold Memory.set
  by_cases hv : v = 0
  · simp only [hv, if_true]
    exact ⟨hf, hz⟩
  · simp only [hv, if_false]
    refine ⟨Memory.pairwise_insert _ a v hf (by simp), ?_⟩
    intro c hc
    rcases (Memory.mem_insert _ a v c).mp hc with rfl | hc
    · exact hv
    · exact hz c hc

/-! ## Loading a program image (R180) -/

theorem Memory.mem_load (ws : List Int) (a : Nat) (c : Nat × Int) (h : c ∈ Memory.load a ws) :
    a ≤ c.1 ∧ c.1 < a + ws.length ∧ c.2 ≠ 0 ∧ c.2 ∈ ws := by
  induction ws generalizing a with
  | nil => simp [Memory.load] at h
  | cons v ws ih =>
    have rec_case : c ∈ Memory.load (a + 1) ws →
        a ≤ c.1 ∧ c.1 < a + (v :: ws).length ∧ c.2 ≠ 0 ∧ c.2 ∈ v :: ws := by
      intro h
      obtain ⟨h1, h2, h3, h4⟩ := ih (a + 1) h
      exact ⟨by omega, by simp only [List.length_cons]; omega, h3, List.mem_cons_of_mem _ h4⟩
    unfold Memory.load at h
    by_cases hv : v = 0
    · simp only [hv, if_true] at h
      simpa [hv] using rec_case h
    · simp only [hv, if_false, List.mem_cons] at h
      rcases h with rfl | h
      · simp [hv]
      · exact rec_case h

theorem Memory.wf_load (ws : List Int) (a : Nat) : (Memory.load a ws).wf := by
  refine ⟨?_, fun c hc => (Memory.mem_load ws a c hc).2.2.1⟩
  induction ws generalizing a with
  | nil => simp [Memory.load]
  | cons v ws ih =>
    unfold Memory.load
    by_cases hv : v = 0
    · simpa [hv] using ih (a + 1)
    · simp only [hv, if_false, List.map_cons, List.pairwise_cons]
      refine ⟨?_, ih (a + 1)⟩
      intro b hb
      obtain ⟨c, hc, rfl⟩ := List.mem_map.mp hb
      have := (Memory.mem_load ws (a + 1) c hc).1
      omega

/-- The image stands from the load address on, and everything else reads 0 (R34). -/
theorem Memory.get_load (ws : List Int) (a b : Nat) :
    Memory.get (Memory.load a ws) b = if a ≤ b then ws.getD (b - a) 0 else 0 := by
  induction ws generalizing a with
  | nil => simp [Memory.load, Memory.get]
  | cons v ws ih =>
    unfold Memory.load
    by_cases hv : v = 0
    · simp only [hv, if_true, ih]
      rcases lt_trichotomy a b with h | h | h
      · obtain ⟨d, rfl⟩ := Nat.exists_eq_add_of_lt h
        simp [show a + d + 1 - a = d + 1 by omega, show a + d + 1 - (a + 1) = d by omega, show a ≤ a + d + 1 by omega]
      · subst h; simp
      · simp [show ¬ a ≤ b by omega, show ¬ a + 1 ≤ b by omega]
    · simp only [hv, if_false, Memory.get, ih]
      rcases lt_trichotomy a b with h | h | h
      · obtain ⟨d, rfl⟩ := Nat.exists_eq_add_of_lt h
        simp [show a + d + 1 - a = d + 1 by omega, show a + d + 1 - (a + 1) = d by omega, show a ≤ a + d + 1 by omega,
          show a ≠ a + d + 1 by omega]
      · subst h; simp
      · simp [show ¬ a ≤ b by omega, show ¬ a + 1 ≤ b by omega, show a ≠ b by omega]

end Sys2Proof.Machine
end

