-- ==== Sys2Proof/Laws/State.lean ====
section
/-! SUPPORT. One lemma per field per update of the state, each true by unfolding, so that no later proof unfolds a record
update. -/

namespace Sys2Proof.Machine

variable (s : State)

/-! ## `store` -/

@[simp] theorem State.store_cfg (a : Int) (v : Int) : (s.store a v).cfg = s.cfg := rfl
@[simp] theorem State.store_mem (a : Int) (v : Int) : (s.store a v).mem = s.mem.set a.toNat v := rfl
@[simp] theorem State.store_pc (a : Int) (v : Int) : (s.store a v).pc = s.pc := rfl
@[simp] theorem State.store_rb (a : Int) (v : Int) : (s.store a v).rb = s.rb := rfl
@[simp] theorem State.store_inputs (a : Int) (v : Int) : (s.store a v).inputs = s.inputs := rfl
@[simp] theorem State.store_outputs (a : Int) (v : Int) : (s.store a v).outputs = s.outputs := rfl
@[simp] theorem State.store_st (a : Int) (v : Int) : (s.store a v).st = s.st := rfl
@[simp] theorem State.store_flt (a : Int) (v : Int) : (s.store a v).flt = s.flt := rfl

/-! ## `setPc` -/

@[simp] theorem State.setPc_cfg (v : Int) : (s.setPc v).cfg = s.cfg := rfl
@[simp] theorem State.setPc_mem (v : Int) : (s.setPc v).mem = s.mem := rfl
@[simp] theorem State.setPc_pc (v : Int) : (s.setPc v).pc = v := rfl
@[simp] theorem State.setPc_rb (v : Int) : (s.setPc v).rb = s.rb := rfl
@[simp] theorem State.setPc_inputs (v : Int) : (s.setPc v).inputs = s.inputs := rfl
@[simp] theorem State.setPc_outputs (v : Int) : (s.setPc v).outputs = s.outputs := rfl
@[simp] theorem State.setPc_st (v : Int) : (s.setPc v).st = s.st := rfl
@[simp] theorem State.setPc_flt (v : Int) : (s.setPc v).flt = s.flt := rfl

/-! ## `advance` -/

@[simp] theorem State.advance_cfg (k : Int) : (s.advance k).cfg = s.cfg := rfl
@[simp] theorem State.advance_mem (k : Int) : (s.advance k).mem = s.mem := rfl
@[simp] theorem State.advance_pc (k : Int) : (s.advance k).pc = s.pc + k := rfl
@[simp] theorem State.advance_rb (k : Int) : (s.advance k).rb = s.rb := rfl
@[simp] theorem State.advance_inputs (k : Int) : (s.advance k).inputs = s.inputs := rfl
@[simp] theorem State.advance_outputs (k : Int) : (s.advance k).outputs = s.outputs := rfl
@[simp] theorem State.advance_st (k : Int) : (s.advance k).st = s.st := rfl
@[simp] theorem State.advance_flt (k : Int) : (s.advance k).flt = s.flt := rfl

/-! ## `setRb` -/

@[simp] theorem State.setRb_cfg (v : Int) : (s.setRb v).cfg = s.cfg := rfl
@[simp] theorem State.setRb_mem (v : Int) : (s.setRb v).mem = s.mem := rfl
@[simp] theorem State.setRb_pc (v : Int) : (s.setRb v).pc = s.pc := rfl
@[simp] theorem State.setRb_rb (v : Int) : (s.setRb v).rb = v := rfl
@[simp] theorem State.setRb_inputs (v : Int) : (s.setRb v).inputs = s.inputs := rfl
@[simp] theorem State.setRb_outputs (v : Int) : (s.setRb v).outputs = s.outputs := rfl
@[simp] theorem State.setRb_st (v : Int) : (s.setRb v).st = s.st := rfl
@[simp] theorem State.setRb_flt (v : Int) : (s.setRb v).flt = s.flt := rfl

/-! ## `dropInput` -/

@[simp] theorem State.dropInput_cfg : (s.dropInput).cfg = s.cfg := rfl
@[simp] theorem State.dropInput_mem : (s.dropInput).mem = s.mem := rfl
@[simp] theorem State.dropInput_pc : (s.dropInput).pc = s.pc := rfl
@[simp] theorem State.dropInput_rb : (s.dropInput).rb = s.rb := rfl
@[simp] theorem State.dropInput_inputs : (s.dropInput).inputs = s.inputs.tail := rfl
@[simp] theorem State.dropInput_outputs : (s.dropInput).outputs = s.outputs := rfl
@[simp] theorem State.dropInput_st : (s.dropInput).st = s.st := rfl
@[simp] theorem State.dropInput_flt : (s.dropInput).flt = s.flt := rfl

/-! ## `pushOutput` -/

@[simp] theorem State.pushOutput_cfg (v : Int) : (s.pushOutput v).cfg = s.cfg := rfl
@[simp] theorem State.pushOutput_mem (v : Int) : (s.pushOutput v).mem = s.mem := rfl
@[simp] theorem State.pushOutput_pc (v : Int) : (s.pushOutput v).pc = s.pc := rfl
@[simp] theorem State.pushOutput_rb (v : Int) : (s.pushOutput v).rb = s.rb := rfl
@[simp] theorem State.pushOutput_inputs (v : Int) : (s.pushOutput v).inputs = s.inputs := rfl
@[simp] theorem State.pushOutput_outputs (v : Int) : (s.pushOutput v).outputs = s.outputs ++ [v] := rfl
@[simp] theorem State.pushOutput_st (v : Int) : (s.pushOutput v).st = s.st := rfl
@[simp] theorem State.pushOutput_flt (v : Int) : (s.pushOutput v).flt = s.flt := rfl

/-! ## `resume` -/

@[simp] theorem State.resume_cfg : (s.resume).cfg = s.cfg := rfl
@[simp] theorem State.resume_mem : (s.resume).mem = s.mem := rfl
@[simp] theorem State.resume_pc : (s.resume).pc = s.pc := rfl
@[simp] theorem State.resume_rb : (s.resume).rb = s.rb := rfl
@[simp] theorem State.resume_inputs : (s.resume).inputs = s.inputs := rfl
@[simp] theorem State.resume_outputs : (s.resume).outputs = s.outputs := rfl
@[simp] theorem State.resume_st : (s.resume).st = .ready := rfl
@[simp] theorem State.resume_flt : (s.resume).flt = s.flt := rfl

/-! ## `suspend` -/

@[simp] theorem State.suspend_cfg : (s.suspend).cfg = s.cfg := rfl
@[simp] theorem State.suspend_mem : (s.suspend).mem = s.mem := rfl
@[simp] theorem State.suspend_pc : (s.suspend).pc = s.pc := rfl
@[simp] theorem State.suspend_rb : (s.suspend).rb = s.rb := rfl
@[simp] theorem State.suspend_inputs : (s.suspend).inputs = s.inputs := rfl
@[simp] theorem State.suspend_outputs : (s.suspend).outputs = s.outputs := rfl
@[simp] theorem State.suspend_st : (s.suspend).st = .waiting := rfl
@[simp] theorem State.suspend_flt : (s.suspend).flt = s.flt := rfl

/-! ## `stop` -/

@[simp] theorem State.stop_cfg : (s.stop).cfg = s.cfg := rfl
@[simp] theorem State.stop_mem : (s.stop).mem = s.mem := rfl
@[simp] theorem State.stop_pc : (s.stop).pc = s.pc := rfl
@[simp] theorem State.stop_rb : (s.stop).rb = s.rb := rfl
@[simp] theorem State.stop_inputs : (s.stop).inputs = s.inputs := rfl
@[simp] theorem State.stop_outputs : (s.stop).outputs = s.outputs := rfl
@[simp] theorem State.stop_st : (s.stop).st = .halted := rfl
@[simp] theorem State.stop_flt : (s.stop).flt = s.flt := rfl

/-! ## `faultEntry` -/

@[simp] theorem State.faultEntry_cfg (r : Raise) : (s.faultEntry r).cfg = s.cfg := rfl
@[simp] theorem State.faultEntry_mem (r : Raise) : (s.faultEntry r).mem = s.mem := rfl
@[simp] theorem State.faultEntry_pc (r : Raise) : (s.faultEntry r).pc = s.pc := rfl
@[simp] theorem State.faultEntry_rb (r : Raise) : (s.faultEntry r).rb = s.rb := rfl
@[simp] theorem State.faultEntry_inputs (r : Raise) : (s.faultEntry r).inputs = s.inputs := rfl
@[simp] theorem State.faultEntry_outputs (r : Raise) : (s.faultEntry r).outputs = s.outputs := rfl
@[simp] theorem State.faultEntry_st (r : Raise) : (s.faultEntry r).st = .faulted := rfl
@[simp] theorem State.faultEntry_flt (r : Raise) : (s.faultEntry r).flt =
      some { kind := r.kind, pc := s.pc, word := s.wordAtPc, param := r.param, mode := r.mode, addr := r.addr } := rfl

/-! ## `pushInput` -/

@[simp] theorem State.pushInput_cfg (v : Int) : (s.pushInput v).cfg = s.cfg := rfl
@[simp] theorem State.pushInput_mem (v : Int) : (s.pushInput v).mem = s.mem := rfl
@[simp] theorem State.pushInput_pc (v : Int) : (s.pushInput v).pc = s.pc := rfl
@[simp] theorem State.pushInput_rb (v : Int) : (s.pushInput v).rb = s.rb := rfl
@[simp] theorem State.pushInput_inputs (v : Int) : (s.pushInput v).inputs = s.inputs ++ [v] := rfl
@[simp] theorem State.pushInput_outputs (v : Int) : (s.pushInput v).outputs = s.outputs := rfl
@[simp] theorem State.pushInput_st (v : Int) : (s.pushInput v).st = s.st := rfl
@[simp] theorem State.pushInput_flt (v : Int) : (s.pushInput v).flt = s.flt := rfl

end Sys2Proof.Machine
end

