-- ==== Sys2Proof/Laws/Operands.lean ====
section
/-! SUPPORT. Phase O: what each operand operation answers, in every case; and how a chain of checks ends. -/

namespace Sys2Proof.Machine

/-! ## Chains of checks -/

@[simp] theorem bind_ok {α β : Type} (a : α) (f : α → Except Raise β) : ((Except.ok a : Except Raise α) >>= f) = f a := rfl

@[simp] theorem bind_error {α β : Type} (e : Raise) (f : α → Except Raise β) :
    ((Except.error e : Except Raise α) >>= f) = .error e := rfl

@[simp] theorem pure_eq_ok {α : Type} (a : α) : (pure a : Except Raise α) = .ok a := rfl

theorem bind_eq_ok {α β : Type} {x : Except Raise α} {f : α → Except Raise β} {b : β} :
    (x >>= f) = .ok b ↔ ∃ a, x = .ok a ∧ f a = .ok b := by
  cases x <;> simp

theorem bind_eq_error {α β : Type} {x : Except Raise α} {f : α → Except Raise β} {e : Raise} :
    (x >>= f) = .error e ↔ x = .error e ∨ ∃ a, x = .ok a ∧ f a = .error e := by
  cases x <;> simp

/-! ## The operands -/

theorem State.inBounds_iff (s : State) (a : Int) : s.inBounds a = true ↔ 0 ≤ a ∧ a < (s.cfg.cap : Int) := by
  simp [State.inBounds]

theorem State.readable_iff (s : State) (o : Operand) :
    s.readable o = true ↔ o.mode = .immediate ∨ s.inBounds (s.effectiveAddress o) = true := by
  simp [State.readable]

theorem State.writable_iff (s : State) (o : Operand) :
    s.writable o = true ↔ o.mode ≠ .immediate ∧ s.inBounds (s.effectiveAddress o) = true := by
  simp [State.writable]

theorem State.checkParam_eq (s : State) (i : Nat) :
    s.checkParam i = if s.inBounds (s.pc + 1 + i) then .ok () else .error (raiseOutOfBounds (s.pc + 1 + i) (some i)) := rfl

/-- A read operand in every case (R86): its value, or `OutOfBounds` of its address. -/
theorem State.readOperand_eq (s : State) (i : Nat) (o : Operand) :
    s.readOperand i o =
      if s.readable o then .ok (s.operandValue o) else .error (raiseOutOfBounds (s.effectiveAddress o) (some i)) := by
  obtain ⟨m, p⟩ := o
  cases m <;> simp [State.readOperand, State.readable, State.operandValue, State.memRead]

/-- A write operand that decode lets through, in every case (R87). -/
theorem State.writeAddress_eq (s : State) (i : Nat) (o : Operand) (h : o.mode ≠ .immediate) :
    s.writeAddress i o =
      if s.writable o then .ok (s.effectiveAddress o) else .error (raiseOutOfBounds (s.effectiveAddress o) (some i)) := by
  obtain ⟨m, p⟩ := o
  cases m <;> simp_all [State.writeAddress, State.writable, State.checkedAddress]

theorem State.writeAddress_ok_iff (s : State) (i : Nat) (o : Operand) (a : Int) :
    s.writeAddress i o = .ok a ↔ s.writable o ∧ a = s.effectiveAddress o := by
  obtain ⟨m, p⟩ := o
  by_cases h : s.inBounds (s.effectiveAddress ⟨m, p⟩) <;> cases m <;>
    simp [State.writeAddress, State.writable_iff, State.checkedAddress, h, eq_comm (b := a)]

theorem State.readParam_ok_iff (s : State) (i : Nat) (o : Operand) (x : Int) :
    s.readParam i o = .ok x ↔ s.inBounds (s.pc + 1 + i) ∧ s.readable o ∧ x = s.operandValue o := by
  unfold State.readParam
  rw [State.checkParam_eq, State.readOperand_eq]
  by_cases h : s.inBounds (s.pc + 1 + i) <;> by_cases h' : s.readable o <;> simp [h, h', eq_comm (b := x)]

theorem State.writeParam_ok_iff (s : State) (i : Nat) (o : Operand) (a : Int) :
    s.writeParam i o = .ok a ↔ s.inBounds (s.pc + 1 + i) ∧ s.writable o ∧ a = s.effectiveAddress o := by
  unfold State.writeParam
  rw [State.checkParam_eq]
  by_cases h : s.inBounds (s.pc + 1 + i) <;> simp [h, State.writeAddress_ok_iff]

/-- Parameter `i`, a read operand, in every case (R88): the parameter word's bounds, then the operand's. -/
theorem State.readParam_eq (s : State) (i : Nat) (o : Operand) :
    s.readParam i o =
      if s.inBounds (s.pc + 1 + i) then
        if s.readable o then .ok (s.operandValue o) else .error (raiseOutOfBounds (s.effectiveAddress o) (some i))
      else .error (raiseOutOfBounds (s.pc + 1 + i) (some i)) := by
  unfold State.readParam
  rw [State.checkParam_eq, State.readOperand_eq]
  by_cases h : s.inBounds (s.pc + 1 + i)
  · simp only [if_pos h, bind_ok]
  · simp only [if_neg h, bind_error]

/-- Parameter `i`, a write operand that decode lets through, in every case (R88). -/
theorem State.writeParam_eq (s : State) (i : Nat) (o : Operand) (hm : o.mode ≠ .immediate) :
    s.writeParam i o =
      if s.inBounds (s.pc + 1 + i) then
        if s.writable o then .ok (s.effectiveAddress o) else .error (raiseOutOfBounds (s.effectiveAddress o) (some i))
      else .error (raiseOutOfBounds (s.pc + 1 + i) (some i)) := by
  unfold State.writeParam
  rw [State.checkParam_eq, State.writeAddress_eq s i o hm]
  by_cases h : s.inBounds (s.pc + 1 + i)
  · simp only [if_pos h, bind_ok]
  · simp only [if_neg h, bind_error]

/-- A fault of phase O on a read operand is `OutOfBounds` of that parameter (R88, R154). -/
theorem State.readParam_error (s : State) (i : Nat) (o : Operand) (e : Raise) (h : s.readParam i o = .error e) :
    ∃ a, e = raiseOutOfBounds a (some i) := by
  rw [State.readParam_eq] at h
  split at h
  · split at h
    · cases h
    · cases h; exact ⟨_, rfl⟩
  · cases h; exact ⟨_, rfl⟩

/-- A fault of phase O on a write operand is `OutOfBounds`, or, on an ill-formed term, `InvalidWriteMode`. -/
theorem State.writeParam_error (s : State) (i : Nat) (o : Operand) (e : Raise) (h : s.writeParam i o = .error e) :
    (∃ a, e = raiseOutOfBounds a (some i)) ∨ (o.mode = .immediate ∧ e = { kind := .invalidWriteMode, param := some i, mode := some 1 }) := by
  by_cases hm : o.mode = .immediate
  · unfold State.writeParam State.writeAddress at h
    rw [State.checkParam_eq] at h
    split at h
    · simp only [hm, bind_ok, Except.error.injEq] at h
      exact .inr ⟨hm, h.symm⟩
    · simp only [bind_error, Except.error.injEq] at h
      exact .inl ⟨_, h.symm⟩
  · rw [State.writeParam_eq s i o hm] at h
    split at h
    · split at h
      · cases h
      · cases h; exact .inl ⟨_, rfl⟩
    · cases h; exact .inl ⟨_, rfl⟩

end Sys2Proof.Machine
end

