-- ==== Sys2Proof/Laws/Decode.lean ====
section
/-! SUPPORT. The decoder: digits as `Nat` arithmetic, what each check of phase D answers, and one lemma that says exactly
when a word decodes to an instruction (`decodeWord_ok_iff`). -/

namespace Sys2Proof

open Sys2Proof.Machine (bind_eq_ok bind_eq_error bind_ok bind_error pure_eq_ok)

/-! ## Digits -/

theorem digit_natCast (n k : Nat) : digit (n : Int) k = ((n / 10 ^ k % 10 : Nat) : Int) := rfl

theorem opcodeField_natCast (n : Nat) : opcodeField (n : Int) = ((n % 100 : Nat) : Int) := rfl

theorem quotient_natCast (n k : Nat) : quotient (n : Int) (pow10 k) = ((n / 10 ^ k : Nat) : Int) := rfl

theorem digit_nonneg (w : Int) (h : 0 ≤ w) (k : Nat) : 0 ≤ digit w k ∧ digit w k < 10 := by
  obtain ⟨n, rfl⟩ := Int.eq_ofNat_of_zero_le h
  rw [digit_natCast]
  omega

/-- A negative word's `rem` is never a legal opcode (R67). -/
theorem opcodeField_neg (w : Int) (h : w < 0) : opcodeField w ≤ 0 := by
  obtain ⟨n, rfl⟩ : ∃ n : Nat, w = -(n : Int) := ⟨w.natAbs, by omega⟩
  have : opcodeField (-(n : Int)) = -((n % 100 : Nat) : Int) := by
    unfold opcodeField remainder
    rw [Int.neg_tmod]
    rfl
  omega

/-! ## The mode checks -/

theorem modeOfDigit_eq_some (d : Int) (m : Mode) : modeOfDigit d = some m ↔ d = m.digit := by
  unfold modeOfDigit Mode.digit
  split
  · subst d; cases m <;> simp
  · split
    · subst d; cases m <;> simp
    · split
      · subst d; cases m <;> simp
      · cases m <;> simp_all

theorem modeOfDigit_eq_none (d : Int) : modeOfDigit d = none ↔ d ≠ 0 ∧ d ≠ 1 ∧ d ≠ 2 := by
  unfold modeOfDigit
  split_ifs <;> simp_all

theorem Mode.digit_injective (m m' : Mode) (h : m.digit = m'.digit) : m = m' := by
  cases m <;> cases m' <;> simp_all [Mode.digit]

theorem decodeMode_ok_iff (w : Int) (kind : OperandKind) (i : Nat) (m : Mode) :
    decodeMode w kind i = .ok m ↔ digit w (i + 2) = m.digit ∧ (kind = .write → m ≠ .immediate) := by
  unfold decodeMode
  cases hm : modeOfDigit (digit w (i + 2)) with
  | none =>
    have := (modeOfDigit_eq_none _).mp hm
    simp only [reduceCtorEq, false_iff, not_and]
    intro h
    exact absurd ((modeOfDigit_eq_some _ m).mpr h) (by simp [hm])
  | some m' =>
    have h' := (modeOfDigit_eq_some _ m').mp hm
    simp only
    split
    · rename_i h
      simp only [reduceCtorEq, false_iff, not_and]
      intro hd
      obtain rfl := Mode.digit_injective _ _ (h'.symm.trans hd)
      simp [h.1, h.2]
    · rename_i h
      simp only [Except.ok.injEq]
      constructor
      · rintro rfl; exact ⟨h', fun hk hi => h ⟨hk, hi⟩⟩
      · rintro ⟨hd, -⟩; exact Mode.digit_injective _ _ (h'.symm.trans hd)

/-- A fault of the mode checks: `InvalidMode` of the digit, or `InvalidWriteMode` (R68, R69). -/
theorem decodeMode_error_iff (w : Int) (kind : OperandKind) (i : Nat) (e : Raise) :
    decodeMode w kind i = .error e ↔
      (modeOfDigit (digit w (i + 2)) = none ∧
        e = { kind := .invalidMode, param := some i, mode := some (digit w (i + 2)) }) ∨
      (kind = .write ∧ digit w (i + 2) = 1 ∧ e = { kind := .invalidWriteMode, param := some i, mode := some 1 }) := by
  unfold decodeMode
  cases hm : modeOfDigit (digit w (i + 2)) with
  | none =>
    have := (modeOfDigit_eq_none _).mp hm
    simp [this.2.1, eq_comm]
  | some m =>
    have h' := (modeOfDigit_eq_some _ m).mp hm
    rw [h']
    cases kind <;> cases m <;> simp [Mode.digit, eq_comm]

/-! ## The digits above the mode digits -/

theorem leastExcess_spec (w : Int) (fuel j : Nat) (h : ∃ d < fuel, digit w (j + d + 2) ≠ 0) :
    j ≤ leastExcess w fuel j ∧ digit w (leastExcess w fuel j + 2) ≠ 0 ∧
      ∀ k, j ≤ k → k < leastExcess w fuel j → digit w (k + 2) = 0 := by
  induction fuel generalizing j with
  | zero => obtain ⟨d, hd, -⟩ := h; omega
  | succ fuel ih =>
    unfold leastExcess
    by_cases hj : digit w (j + 2) = 0
    · simp only [hj, ne_eq, not_true_eq_false, if_false]
      obtain ⟨d, hd, hne⟩ := h
      obtain ⟨d, rfl⟩ : ∃ d', d = d' + 1 := by
        cases d with
        | zero => exact absurd hj hne
        | succ d => exact ⟨d, rfl⟩
      obtain ⟨h1, h2, h3⟩ := ih (j + 1) ⟨d, by omega, by rwa [show j + 1 + d = j + (d + 1) by omega]⟩
      refine ⟨by omega, h2, fun k hk hk' => ?_⟩
      by_cases hkj : k = j
      · rw [hkj]; exact hj
      · exact h3 k (by omega) hk'
    · simp only [ne_eq, hj, not_false_eq_true, if_true]
      exact ⟨le_refl _, trivial, fun k h1 h2 => by omega⟩

theorem exists_digit_ne_zero (q : Nat) (h : q ≠ 0) : ∃ d < q, q / 10 ^ d % 10 ≠ 0 := by
  induction q using Nat.strong_induction_on with
  | _ q ih =>
    by_cases h0 : q % 10 = 0
    · obtain ⟨d, hd, hne⟩ := ih (q / 10) (by omega) (by omega)
      refine ⟨d + 1, by omega, ?_⟩
      rwa [Nat.pow_succ', ← Nat.div_div_eq_div_mul]
    · exact ⟨0, by omega, by simpa using h0⟩

/-- The fuel of `checkExcess` is enough: some digit above the mode digits is found. -/
theorem exists_excess (w : Int) (n : Nat) (hw : 0 ≤ w) (h : quotient w (pow10 (n + 2)) ≠ 0) :
    ∃ d < w.toNat, digit w (n + d + 2) ≠ 0 := by
  obtain ⟨x, rfl⟩ := Int.eq_ofNat_of_zero_le hw
  rw [quotient_natCast] at h
  obtain ⟨d, hd, hne⟩ := exists_digit_ne_zero (x / 10 ^ (n + 2)) (by exact_mod_cast h)
  have hle : x / 10 ^ (n + 2) ≤ x := Nat.div_le_self _ _
  refine ⟨d, by simp only [Int.toNat_natCast]; omega, ?_⟩
  rw [digit_natCast, show n + d + 2 = (n + 2) + d by omega, Nat.pow_add, ← Nat.div_div_eq_div_mul]
  exact_mod_cast hne

theorem checkExcess_ok_iff (cfg : Config) (w : Int) (n : Nat) :
    checkExcess cfg w n = .ok () ↔ (cfg.excessDigits = .reject → quotient w (pow10 (n + 2)) = 0) := by
  unfold checkExcess
  split
  · rename_i h; simp [h.1, h.2]
  · rename_i h
    simp only [true_iff]
    intro hr
    by_contra hq
    exact h ⟨hr, hq⟩

theorem checkExcess_ignore (cfg : Config) (w : Int) (n : Nat) (h : cfg.excessDigits = .ignore) :
    checkExcess cfg w n = .ok () := by
  rw [checkExcess_ok_iff, h]; intro h; cases h

/-- The lowest nonzero digit above the mode digits is the one reported (R70). -/
theorem checkExcess_error (cfg : Config) (w : Int) (n : Nat) (e : Raise) (hw : 0 ≤ w) (h : checkExcess cfg w n = .error e) :
    cfg.excessDigits = .reject ∧ ∃ j, n ≤ j ∧ digit w (j + 2) ≠ 0 ∧ (∀ k, n ≤ k → k < j → digit w (k + 2) = 0) ∧
      e = { kind := .invalidMode, param := some j, mode := some (digit w (j + 2)) } := by
  unfold checkExcess at h
  split at h
  · rename_i hc
    obtain ⟨h1, h2, h3⟩ := leastExcess_spec w w.toNat n (exists_excess w n hw hc.2)
    simp only [Except.error.injEq] at h
    exact ⟨hc.1, _, h1, h2, h3, h.symm⟩
  · cases h

/-! ## The formats -/

theorem decodeF4_ok_iff (cfg : Config) (w p0 p1 p2 : Int) (mk : Operand → Operand → Operand → Instr) (i : Instr) :
    decodeF4 cfg w p0 p1 p2 mk = .ok i ↔
      ∃ m0 m1 m2, decodeMode w .read 0 = .ok m0 ∧ decodeMode w .read 1 = .ok m1 ∧ decodeMode w .write 2 = .ok m2 ∧
        checkExcess cfg w 3 = .ok () ∧ i = mk ⟨m0, p0⟩ ⟨m1, p1⟩ ⟨m2, p2⟩ := by
  unfold decodeF4
  simp only [bind_eq_ok, pure_eq_ok, Except.ok.injEq]
  constructor
  · rintro ⟨m0, h0, m1, h1, m2, h2, ⟨⟩, hx, rfl⟩; exact ⟨m0, m1, m2, h0, h1, h2, hx, rfl⟩
  · rintro ⟨m0, m1, m2, h0, h1, h2, hx, rfl⟩; exact ⟨m0, h0, m1, h1, m2, h2, (), hx, rfl⟩

theorem decodeF3_ok_iff (cfg : Config) (w p0 p1 : Int) (mk : Operand → Operand → Instr) (i : Instr) :
    decodeF3 cfg w p0 p1 mk = .ok i ↔
      ∃ m0 m1, decodeMode w .read 0 = .ok m0 ∧ decodeMode w .read 1 = .ok m1 ∧
        checkExcess cfg w 2 = .ok () ∧ i = mk ⟨m0, p0⟩ ⟨m1, p1⟩ := by
  unfold decodeF3
  simp only [bind_eq_ok, pure_eq_ok, Except.ok.injEq]
  constructor
  · rintro ⟨m0, h0, m1, h1, ⟨⟩, hx, rfl⟩; exact ⟨m0, m1, h0, h1, hx, rfl⟩
  · rintro ⟨m0, m1, h0, h1, hx, rfl⟩; exact ⟨m0, h0, m1, h1, (), hx, rfl⟩

theorem decodeF2_ok_iff (cfg : Config) (w p0 : Int) (kind : OperandKind) (mk : Operand → Instr) (i : Instr) :
    decodeF2 cfg w p0 kind mk = .ok i ↔
      ∃ m0, decodeMode w kind 0 = .ok m0 ∧ checkExcess cfg w 1 = .ok () ∧ i = mk ⟨m0, p0⟩ := by
  unfold decodeF2
  simp only [bind_eq_ok, pure_eq_ok, Except.ok.injEq]
  constructor
  · rintro ⟨m0, h0, ⟨⟩, hx, rfl⟩; exact ⟨m0, h0, hx, rfl⟩
  · rintro ⟨m0, h0, hx, rfl⟩; exact ⟨m0, h0, (), hx, rfl⟩

theorem decodeF1_ok_iff (cfg : Config) (w : Int) (i j : Instr) :
    decodeF1 cfg w j = .ok i ↔ checkExcess cfg w 0 = .ok () ∧ i = j := by
  unfold decodeF1
  simp only [bind_eq_ok, pure_eq_ok, Except.ok.injEq]
  constructor
  · rintro ⟨⟨⟩, hx, rfl⟩; exact ⟨hx, rfl⟩
  · rintro ⟨hx, rfl⟩; exact ⟨(), hx, rfl⟩

/-! ## The whole word -/

/-- The opcode of an instruction (R62). -/
def Instr.opcode : Instr → Int
  | .add _ _ _ => 1
  | .mul _ _ _ => 2
  | .input _ => 3
  | .output _ => 4
  | .jumpIfTrue _ _ => 5
  | .jumpIfFalse _ _ => 6
  | .lessThan _ _ _ => 7
  | .equals _ _ _ => 8
  | .adjustRelativeBase _ => 9
  | .halt => 99

theorem forall_getElem_one {α : Type} (P : Nat → α → Prop) (a : α) :
    (∀ k (h : k < [a].length), P k [a][k]) ↔ P 0 a := by
  constructor
  · exact fun h => h 0 (by simp)
  · intro h0 k h
    match k, h with
    | 0, _ => exact h0

theorem forall_getElem_two {α : Type} (P : Nat → α → Prop) (a b : α) :
    (∀ k (h : k < [a, b].length), P k [a, b][k]) ↔ P 0 a ∧ P 1 b := by
  constructor
  · exact fun h => ⟨h 0 (by simp), h 1 (by simp)⟩
  · rintro ⟨h0, h1⟩ k h
    match k, h with
    | 0, _ => exact h0
    | 1, _ => exact h1

theorem forall_getElem_three {α : Type} (P : Nat → α → Prop) (a b c : α) :
    (∀ k (h : k < [a, b, c].length), P k [a, b, c][k]) ↔ P 0 a ∧ P 1 b ∧ P 2 c := by
  constructor
  · exact fun h => ⟨h 0 (by simp), h 1 (by simp), h 2 (by simp)⟩
  · rintro ⟨h0, h1, h2⟩ k h
    match k, h with
    | 0, _ => exact h0
    | 1, _ => exact h1
    | 2, _ => exact h2

/-- The operands' modes are what the mode checks answer, parameter by parameter. -/
def modesDecode (w : Int) (ops : List (OperandKind × Operand)) : Prop :=
  ∀ k (h : k < ops.length), decodeMode w ops[k].1 k = .ok ops[k].2.mode

theorem modesDecode_nil (w : Int) : modesDecode w [] ↔ True := by
  simp [modesDecode]

theorem modesDecode_one (w : Int) (p : OperandKind × Operand) :
    modesDecode w [p] ↔ decodeMode w p.1 0 = .ok p.2.mode :=
  forall_getElem_one (fun k (p : OperandKind × Operand) => decodeMode w p.1 k = .ok p.2.mode) p

theorem modesDecode_two (w : Int) (p q : OperandKind × Operand) :
    modesDecode w [p, q] ↔ decodeMode w p.1 0 = .ok p.2.mode ∧ decodeMode w q.1 1 = .ok q.2.mode :=
  forall_getElem_two (fun k (p : OperandKind × Operand) => decodeMode w p.1 k = .ok p.2.mode) p q

theorem modesDecode_three (w : Int) (p q r : OperandKind × Operand) :
    modesDecode w [p, q, r] ↔ decodeMode w p.1 0 = .ok p.2.mode ∧ decodeMode w q.1 1 = .ok q.2.mode ∧
      decodeMode w r.1 2 = .ok r.2.mode :=
  forall_getElem_three (fun k (p : OperandKind × Operand) => decodeMode w p.1 k = .ok p.2.mode) p q r

/-- When a word decodes to an instruction: its opcode, its modes, no excess digit under `reject`, and the parameter words
as its operands. -/
theorem decodeWord_ok_iff (cfg : Config) (w p0 p1 p2 : Int) (i : Instr) :
    decodeWord cfg w p0 p1 p2 = .ok i ↔
      0 ≤ w ∧ opcodeField w = i.opcode ∧ modesDecode w i.operands ∧ checkExcess cfg w i.nparams = .ok () ∧
        i.operands.map (fun p => p.2.param) = [p0, p1, p2].take i.nparams := by
  unfold decodeWord
  by_cases hw : w < 0
  · simp [hw, show ¬ 0 ≤ w by omega]
  have hw' : 0 ≤ w := by omega
  simp only [hw, if_false, hw', true_and]
  split_ifs with h1 h2 h3 h4 h5 h6 h7 h8 h9 h99
  all_goals
    first
    | simp only [decodeF4_ok_iff]
    | simp only [decodeF3_ok_iff]
    | simp only [decodeF2_ok_iff]
    | simp only [decodeF1_ok_iff]
    | skip
  all_goals
    cases i <;> simp_all only [Instr.opcode, reduceCtorEq, and_false, false_and, exists_false, not_false_eq_true,
      Int.reduceEq, true_and]
  all_goals
    simp only [Instr.nparams, Instr.operands, modesDecode_nil, modesDecode_one, modesDecode_two, modesDecode_three,
      List.length_cons, List.length_nil, List.map_cons, List.map_nil, List.take, Nat.reduceAdd, Instr.add.injEq,
      Instr.mul.injEq, Instr.input.injEq, Instr.output.injEq, Instr.jumpIfTrue.injEq, Instr.jumpIfFalse.injEq,
      Instr.lessThan.injEq, Instr.equals.injEq, Instr.adjustRelativeBase.injEq, List.cons.injEq, and_true]
  case pos.halt => simp
  all_goals
    constructor
    · first
      | rintro ⟨m0, m1, m2, h0, h1, h2, hx, rfl, rfl, rfl⟩; exact ⟨⟨h0, h1, h2⟩, hx, rfl, rfl, rfl⟩
      | rintro ⟨m0, m1, h0, h1, hx, rfl, rfl⟩; exact ⟨⟨h0, h1⟩, hx, rfl, rfl⟩
      | rintro ⟨m0, h0, hx, rfl⟩; exact ⟨h0, hx, rfl⟩
    · first
      | rintro ⟨⟨h0, h1, h2⟩, hx, rfl, rfl, rfl⟩; exact ⟨_, _, _, h0, h1, h2, hx, rfl, rfl, rfl⟩
      | rintro ⟨⟨h0, h1⟩, hx, rfl, rfl⟩; exact ⟨_, _, h0, h1, hx, rfl, rfl⟩
      | rintro ⟨h0, hx, rfl⟩; exact ⟨_, h0, hx, rfl⟩

/-! ## What an illegal word answers -/

/-- Which format a word of given opcode is decoded as (R61, R62); any other nonnegative word is `InvalidOpcode` (R66). -/
theorem decodeWord_format (cfg : Config) (w : Int) (h : 0 ≤ w) :
    (opcodeField w ∈ [1, 2, 7, 8] ∧ ∃ mk, ∀ p0 p1 p2, decodeWord cfg w p0 p1 p2 = decodeF4 cfg w p0 p1 p2 mk) ∨
      (opcodeField w = 3 ∧ ∀ p0 p1 p2, decodeWord cfg w p0 p1 p2 = decodeF2 cfg w p0 .write .input) ∨
      (opcodeField w ∈ [4, 9] ∧ ∃ mk, ∀ p0 p1 p2, decodeWord cfg w p0 p1 p2 = decodeF2 cfg w p0 .read mk) ∨
      (opcodeField w ∈ [5, 6] ∧ ∃ mk, ∀ p0 p1 p2, decodeWord cfg w p0 p1 p2 = decodeF3 cfg w p0 p1 mk) ∨
      (opcodeField w = 99 ∧ ∀ p0 p1 p2, decodeWord cfg w p0 p1 p2 = decodeF1 cfg w .halt) ∨
      (opcodeField w ∉ [1, 2, 3, 4, 5, 6, 7, 8, 9, 99] ∧
        ∀ p0 p1 p2, decodeWord cfg w p0 p1 p2 = .error { kind := .invalidOpcode }) := by
  have hw : ¬ w < 0 := by omega
  by_cases h1 : opcodeField w = 1
  · exact .inl (⟨by simp [h1], .add, fun _ _ _ => by simp [decodeWord, hw, h1]⟩)
  by_cases h2 : opcodeField w = 2
  · exact .inl (⟨by simp [h2], .mul, fun _ _ _ => by simp [decodeWord, hw, h2]⟩)
  by_cases h7 : opcodeField w = 7
  · exact .inl (⟨by simp [h7], .lessThan, fun _ _ _ => by simp [decodeWord, hw, h7]⟩)
  by_cases h8 : opcodeField w = 8
  · exact .inl (⟨by simp [h8], .equals, fun _ _ _ => by simp [decodeWord, hw, h8]⟩)
  by_cases h3 : opcodeField w = 3
  · exact .inr (.inl (⟨h3, fun _ _ _ => by simp [decodeWord, hw, h3]⟩))
  by_cases h4 : opcodeField w = 4
  · exact .inr (.inr (.inl (⟨by simp [h4], .output, fun _ _ _ => by simp [decodeWord, hw, h4]⟩)))
  by_cases h9 : opcodeField w = 9
  · exact .inr (.inr (.inl (⟨by simp [h9], .adjustRelativeBase, fun _ _ _ => by simp [decodeWord, hw, h9]⟩)))
  by_cases h5 : opcodeField w = 5
  · exact .inr (.inr (.inr (.inl (⟨by simp [h5], .jumpIfTrue, fun _ _ _ => by simp [decodeWord, hw, h5]⟩))))
  by_cases h6 : opcodeField w = 6
  · exact .inr (.inr (.inr (.inl (⟨by simp [h6], .jumpIfFalse, fun _ _ _ => by simp [decodeWord, hw, h6]⟩))))
  by_cases h99 : opcodeField w = 99
  · exact .inr (.inr (.inr (.inr (.inl (⟨h99, fun _ _ _ => by simp [decodeWord, hw, h99]⟩)))))
  · refine .inr (.inr (.inr (.inr (.inr ⟨by simp [h1, h2, h3, h4, h5, h6, h7, h8, h9, h99], fun _ _ _ => ?_⟩))))
    simp only [decodeWord, hw, h1, h2, h3, h4, h5, h6, h7, h8, h9, h99, if_false]

theorem decodeWord_neg (cfg : Config) (w p0 p1 p2 : Int) (h : w < 0) :
    decodeWord cfg w p0 p1 p2 = .error { kind := .invalidOpcode } := by
  simp only [decodeWord, h, if_true]

theorem decodeF4_error_iff (cfg : Config) (w p0 p1 p2 : Int) (mk : Operand → Operand → Operand → Instr) (e : Raise) :
    decodeF4 cfg w p0 p1 p2 mk = .error e ↔
      decodeMode w .read 0 = .error e ∨
      (∃ m0, decodeMode w .read 0 = .ok m0) ∧ (decodeMode w .read 1 = .error e ∨
      (∃ m1, decodeMode w .read 1 = .ok m1) ∧ (decodeMode w .write 2 = .error e ∨
      (∃ m2, decodeMode w .write 2 = .ok m2) ∧ checkExcess cfg w 3 = .error e)) := by
  unfold decodeF4
  cases decodeMode w .read 0 <;> cases decodeMode w .read 1 <;> cases decodeMode w .write 2 <;>
    cases checkExcess cfg w 3 <;> simp

theorem decodeF3_error_iff (cfg : Config) (w p0 p1 : Int) (mk : Operand → Operand → Instr) (e : Raise) :
    decodeF3 cfg w p0 p1 mk = .error e ↔
      decodeMode w .read 0 = .error e ∨
      (∃ m0, decodeMode w .read 0 = .ok m0) ∧ (decodeMode w .read 1 = .error e ∨
      (∃ m1, decodeMode w .read 1 = .ok m1) ∧ checkExcess cfg w 2 = .error e) := by
  unfold decodeF3
  cases decodeMode w .read 0 <;> cases decodeMode w .read 1 <;> cases checkExcess cfg w 2 <;> simp

theorem decodeF2_error_iff (cfg : Config) (w p0 : Int) (kind : OperandKind) (mk : Operand → Instr) (e : Raise) :
    decodeF2 cfg w p0 kind mk = .error e ↔
      decodeMode w kind 0 = .error e ∨ (∃ m0, decodeMode w kind 0 = .ok m0) ∧ checkExcess cfg w 1 = .error e := by
  unfold decodeF2
  cases decodeMode w kind 0 <;> cases checkExcess cfg w 1 <;> simp

theorem decodeF1_error_iff (cfg : Config) (w : Int) (i : Instr) (e : Raise) :
    decodeF1 cfg w i = .error e ↔ checkExcess cfg w 0 = .error e := by
  unfold decodeF1
  cases checkExcess cfg w 0 <;> simp

/-- A fault of phase D is one of the three decode faults, with a word to report and no address; the mode faults name a
parameter and a mode (R71, R150). -/
theorem decodeWord_error (cfg : Config) (w p0 p1 p2 : Int) (e : Raise) (h : decodeWord cfg w p0 p1 p2 = .error e) :
    e.addr = none ∧
      (e = { kind := .invalidOpcode } ∨ (∃ k d, e = { kind := .invalidMode, param := some k, mode := some d }) ∨
        ∃ k, e = { kind := .invalidWriteMode, param := some k, mode := some 1 }) := by
  by_cases hw : w < 0
  · rw [decodeWord_neg cfg w p0 p1 p2 hw] at h
    cases h; exact ⟨rfl, .inl rfl⟩
  have mode : ∀ kind i, decodeMode w kind i = .error e → e.addr = none ∧
      (e = { kind := .invalidOpcode } ∨ (∃ k d, e = { kind := .invalidMode, param := some k, mode := some d }) ∨
        ∃ k, e = { kind := .invalidWriteMode, param := some k, mode := some 1 }) := by
    intro kind i h
    rcases (decodeMode_error_iff w kind i e).mp h with ⟨-, rfl⟩ | ⟨-, -, rfl⟩
    · exact ⟨rfl, .inr (.inl ⟨_, _, rfl⟩)⟩
    · exact ⟨rfl, .inr (.inr ⟨_, rfl⟩)⟩
  have excess : ∀ n, checkExcess cfg w n = .error e → e.addr = none ∧
      (e = { kind := .invalidOpcode } ∨ (∃ k d, e = { kind := .invalidMode, param := some k, mode := some d }) ∨
        ∃ k, e = { kind := .invalidWriteMode, param := some k, mode := some 1 }) := by
    intro n h
    obtain ⟨-, j, -, -, -, rfl⟩ := checkExcess_error cfg w n e (by omega) h
    exact ⟨rfl, .inr (.inl ⟨_, _, rfl⟩)⟩
  rcases decodeWord_format cfg w (by omega) with ⟨-, mk, hd⟩ | ⟨-, hd⟩ | ⟨-, mk, hd⟩ | ⟨-, mk, hd⟩ | ⟨-, hd⟩ | ⟨-, hd⟩
  · rw [hd, decodeF4_error_iff] at h
    rcases h with h | ⟨-, h | ⟨-, h | ⟨-, h⟩⟩⟩
    · exact mode _ _ h
    · exact mode _ _ h
    · exact mode _ _ h
    · exact excess _ h
  · rw [hd, decodeF2_error_iff] at h
    rcases h with h | ⟨-, h⟩
    · exact mode _ _ h
    · exact excess _ h
  · rw [hd, decodeF2_error_iff] at h
    rcases h with h | ⟨-, h⟩
    · exact mode _ _ h
    · exact excess _ h
  · rw [hd, decodeF3_error_iff] at h
    rcases h with h | ⟨-, h | ⟨-, h⟩⟩
    · exact mode _ _ h
    · exact mode _ _ h
    · exact excess _ h
  · rw [hd, decodeF1_error_iff] at h
    exact excess _ h
  · rw [hd] at h
    cases h; exact ⟨rfl, .inl rfl⟩

/-! ## Lists of words, and the encoder -/

theorem instrWord_natCast (op : Nat) (m0 m1 m2 : Mode) :
    ∃ a b c : Nat, a ≤ 2 ∧ b ≤ 2 ∧ c ≤ 2 ∧ m0.digit = a ∧ m1.digit = b ∧ m2.digit = c ∧
      instrWord op m0 m1 m2 = ((op + 100 * a + 1000 * b + 10000 * c : Nat) : Int) := by
  refine ⟨m0.digit.toNat, m1.digit.toNat, m2.digit.toNat, ?_⟩
  unfold instrWord
  cases m0 <;> cases m1 <;> cases m2 <;> simp [Mode.digit]

/-- The fields of an instruction word are those it was made from (R61). -/
theorem instrWord_fields (op : Nat) (h : op < 100) (m0 m1 m2 : Mode) :
    0 ≤ instrWord op m0 m1 m2 ∧ opcodeField (instrWord op m0 m1 m2) = op ∧
      digit (instrWord op m0 m1 m2) 2 = m0.digit ∧ digit (instrWord op m0 m1 m2) 3 = m1.digit ∧
      digit (instrWord op m0 m1 m2) 4 = m2.digit ∧ quotient (instrWord op m0 m1 m2) (pow10 5) = 0 ∧
      (m2 = .position → quotient (instrWord op m0 m1 m2) (pow10 4) = 0 ∧
        (m1 = .position → quotient (instrWord op m0 m1 m2) (pow10 3) = 0 ∧
          (m0 = .position → quotient (instrWord op m0 m1 m2) (pow10 2) = 0))) := by
  obtain ⟨a, b, c, ha, hb, hc, h0, h1, h2, hw⟩ := instrWord_natCast op m0 m1 m2
  rw [hw, h0, h1, h2]
  simp only [digit_natCast, opcodeField_natCast, quotient_natCast]
  refine ⟨by omega, by congr 1; omega, by congr 1; omega, by congr 1; omega, by congr 1; omega, ?_, ?_⟩
  · norm_cast; omega
  · rintro rfl; simp only [Mode.digit] at h2
    refine ⟨by norm_cast; omega, ?_⟩
    rintro rfl; simp only [Mode.digit] at h1
    refine ⟨by norm_cast; omega, ?_⟩
    rintro rfl; simp only [Mode.digit] at h0
    norm_cast; omega

/-- The instruction word of `encode i`. -/
def Instr.headWord : Instr → Int
  | .add a b d => instrWord 1 a.mode b.mode d.mode
  | .mul a b d => instrWord 2 a.mode b.mode d.mode
  | .input d => instrWord 3 d.mode .position .position
  | .output a => instrWord 4 a.mode .position .position
  | .jumpIfTrue a b => instrWord 5 a.mode b.mode .position
  | .jumpIfFalse a b => instrWord 6 a.mode b.mode .position
  | .lessThan a b d => instrWord 7 a.mode b.mode d.mode
  | .equals a b d => instrWord 8 a.mode b.mode d.mode
  | .adjustRelativeBase a => instrWord 9 a.mode .position .position
  | .halt => instrWord 99 .position .position .position

theorem encode_eq_cons (i : Instr) : encode i = Instr.headWord i :: i.operands.map (fun p => p.2.param) := by
  cases i <;> rfl

/-- When a list of words decodes to an instruction (R60). -/
theorem decode_cons_ok_iff (cfg : Config) (w : Int) (ps rest : List Int) (i : Instr) :
    decode cfg (w :: ps) = .ok (i, rest) ↔
      decodeWord cfg w (ps.getD 0 0) (ps.getD 1 0) (ps.getD 2 0) = .ok i ∧ i.nparams ≤ ps.length ∧
        rest = ps.drop i.nparams := by
  simp only [decode]
  cases h : decodeWord cfg w (ps.getD 0 0) (ps.getD 1 0) (ps.getD 2 0) with
  | error r => simp
  | ok j =>
    simp only
    split
    · rename_i hlt
      simp only [reduceCtorEq, Except.ok.injEq, false_iff, not_and]
      rintro rfl hle; omega
    · rename_i hlt
      simp only [Except.ok.injEq, Prod.mk.injEq]
      constructor
      · rintro ⟨rfl, rfl⟩; exact ⟨rfl, by omega, rfl⟩
      · rintro ⟨rfl, -, rfl⟩; exact ⟨rfl, rfl⟩

theorem Instr.nparams_le (i : Instr) : i.nparams ≤ 3 := by cases i <;> simp [Instr.nparams, Instr.operands]

theorem take_getD (ps : List Int) (n : Nat) (hn : n ≤ 3) (h : n ≤ ps.length) :
    [ps.getD 0 0, ps.getD 1 0, ps.getD 2 0].take n = ps.take n := by
  match n, ps, hn, h with
  | 0, _, _, _ => rfl
  | 1, a :: _, _, _ => rfl
  | 2, a :: b :: _, _, _ => rfl
  | 3, a :: b :: c :: _, _, _ => rfl

/-- The instruction word of a well-formed instruction passes every check of phase D. -/
theorem headWord_decodes (cfg : Config) (i : Instr) (h : ∀ p ∈ i.operands, p.1 = .write → p.2.mode ≠ .immediate) :
    0 ≤ i.headWord ∧ opcodeField i.headWord = i.opcode ∧ modesDecode i.headWord i.operands ∧
      checkExcess cfg i.headWord i.nparams = .ok () := by
  cases i <;>
    simp only [Instr.headWord, Instr.opcode, Instr.operands, Instr.nparams, List.length_cons, List.length_nil,
      Nat.reduceAdd, checkExcess_ok_iff, modesDecode_nil, modesDecode_one, modesDecode_two, modesDecode_three,
      decodeMode_ok_iff]
  case add a b d =>
    have := instrWord_fields 1 (by norm_num) a.mode b.mode d.mode
    have h := h (.write, d) (by simp [Instr.operands])
    simp_all
  case mul a b d =>
    have := instrWord_fields 2 (by norm_num) a.mode b.mode d.mode
    have h := h (.write, d) (by simp [Instr.operands])
    simp_all
  case lessThan a b d =>
    have := instrWord_fields 7 (by norm_num) a.mode b.mode d.mode
    have h := h (.write, d) (by simp [Instr.operands])
    simp_all
  case equals a b d =>
    have := instrWord_fields 8 (by norm_num) a.mode b.mode d.mode
    have h := h (.write, d) (by simp [Instr.operands])
    simp_all
  case input d =>
    have := instrWord_fields 3 (by norm_num) d.mode .position .position
    have h := h (.write, d) (by simp [Instr.operands])
    simp_all
  case output a =>
    have := instrWord_fields 4 (by norm_num) a.mode .position .position
    simp_all
  case adjustRelativeBase a =>
    have := instrWord_fields 9 (by norm_num) a.mode .position .position
    simp_all
  case jumpIfTrue a b =>
    have := instrWord_fields 5 (by norm_num) a.mode b.mode .position
    simp_all
  case jumpIfFalse a b =>
    have := instrWord_fields 6 (by norm_num) a.mode b.mode .position
    simp_all
  case halt =>
    have := instrWord_fields 99 (by norm_num) .position .position .position
    simp_all

/-- A word with no digit above its mode digits is the instruction word of what it decodes to (R61). -/
theorem eq_headWord_of_decodes (w : Int) (i : Instr) (h : 0 ≤ w) (hq : quotient w (pow10 (i.nparams + 2)) = 0)
    (ho : opcodeField w = i.opcode) (hm : modesDecode w i.operands) : w = i.headWord := by
  obtain ⟨x, rfl⟩ := Int.eq_ofNat_of_zero_le h
  cases i <;>
    simp only [Instr.headWord, Instr.opcode, Instr.operands, Instr.nparams, List.length_cons, List.length_nil,
      Nat.reduceAdd, instrWord, Mode.digit, modesDecode_nil, modesDecode_one, modesDecode_two, modesDecode_three,
      decodeMode_ok_iff, digit_natCast, opcodeField_natCast, quotient_natCast] at * <;>
    norm_num at * <;> omega

end Sys2Proof
end

