-- ==== Sys2Proof/Laws/Exec.lean ====
section
/-! SUPPORT. Phases O and E: once for every instruction, when it completes and with what state (`effect_…_ok_iff`), and which
faults it can raise (`effect_error`). Later proofs cite these and unfold no meaning. -/

namespace Sys2Proof.Machine

/-! ## How an instruction ends -/

@[simp] theorem State.complete_ok (s t : State) : s.complete (.ok t) = .next t := rfl

@[simp] theorem State.complete_error (s : State) (e : Raise) : s.complete (.error e) = .next (s.faultEntry e) := rfl

theorem State.complete_eq_next (s t : State) (r : Except Raise State) :
    s.complete r = .next t ↔ r = .ok t ∨ ∃ e, r = .error e ∧ t = s.faultEntry e := by
  cases r <;> simp [eq_comm]

/-- Phases O and E of each instruction, before the fault entry. -/
def State.effect (s : State) : Instr → Except Raise State
  | .add a b d => s.binaryToMemory a b d (aluAdd s.cfg)
  | .mul a b d => s.binaryToMemory a b d (aluMul s.cfg)
  | .input d => do return s.takeInput (← s.writeParam 0 d)
  | .output a => do return (s.pushOutput (← s.readParam 0 a)).advance 2
  | .jumpIfTrue a b => s.jumpWhen a b (fun x => !zeroTest x)
  | .jumpIfFalse a b => s.jumpWhen a b zeroTest
  | .lessThan a b d => s.binaryToMemory a b d (fun x y => .ok (aluLt x y))
  | .equals a b d => s.binaryToMemory a b d (fun x y => .ok (aluEq x y))
  | .adjustRelativeBase a => do
      let x ← s.readParam 0 a
      let r ← fit s.cfg (s.rb + x)
      return (s.setRb r).advance 2
  | .halt => .ok s.stop

/-- Every meaning is its effect, or the entry of the fault it raised. -/
theorem exec_eq_complete (i : Instr) (s : State) : exec i s = s.complete (s.effect i) := by
  cases i <;> rfl

/-! ## The parameter words in bounds -/

theorem State.paramsInBounds_one (s : State) : s.paramsInBounds 1 ↔ s.inBounds (s.pc + 1 + (0 : Nat)) = true := by
  constructor
  · exact fun h => h 0 (by omega)
  · intro h i hi
    obtain rfl : i = 0 := by omega
    exact h

theorem State.paramsInBounds_two (s : State) :
    s.paramsInBounds 2 ↔ s.inBounds (s.pc + 1 + (0 : Nat)) = true ∧ s.inBounds (s.pc + 1 + (1 : Nat)) = true := by
  constructor
  · exact fun h => ⟨h 0 (by omega), h 1 (by omega)⟩
  · rintro ⟨h0, h1⟩ i hi
    obtain rfl | rfl : i = 0 ∨ i = 1 := by omega
    · exact h0
    · exact h1

theorem State.paramsInBounds_three (s : State) :
    s.paramsInBounds 3 ↔ s.inBounds (s.pc + 1 + (0 : Nat)) = true ∧ s.inBounds (s.pc + 1 + (1 : Nat)) = true ∧
      s.inBounds (s.pc + 1 + (2 : Nat)) = true := by
  constructor
  · exact fun h => ⟨h 0 (by omega), h 1 (by omega), h 2 (by omega)⟩
  · rintro ⟨h0, h1, h2⟩ i hi
    obtain rfl | rfl | rfl : i = 0 ∨ i = 1 ∨ i = 2 := by omega
    · exact h0
    · exact h1
    · exact h2

/-! ## The shared operations: when they complete -/

theorem State.binaryToMemory_ok_iff (s t : State) (a b d : Operand) (f : Int → Int → Except Raise Int) :
    s.binaryToMemory a b d f = .ok t ↔
      (s.paramsInBounds 3 ∧ s.readable a = true ∧ s.readable b = true ∧ s.writable d = true) ∧
        ∃ r, f (s.operandValue a) (s.operandValue b) = .ok r ∧ t = (s.store (s.effectiveAddress d) r).advance 4 := by
  unfold State.binaryToMemory
  simp only [bind_eq_ok, State.readParam_ok_iff, State.writeParam_ok_iff, State.paramsInBounds_three, pure_eq_ok,
    Except.ok.injEq]
  constructor
  · rintro ⟨_, ⟨h0, ha, rfl⟩, _, ⟨h1, hb, rfl⟩, _, ⟨h2, hd, rfl⟩, r, hr, rfl⟩
    exact ⟨⟨⟨h0, h1, h2⟩, ha, hb, hd⟩, r, hr, rfl⟩
  · rintro ⟨⟨⟨h0, h1, h2⟩, ha, hb, hd⟩, r, hr, rfl⟩
    exact ⟨_, ⟨h0, ha, rfl⟩, _, ⟨h1, hb, rfl⟩, _, ⟨h2, hd, rfl⟩, r, hr, rfl⟩

/-- With every operand resolved, what is left is the ALU function's own answer. -/
theorem State.binaryToMemory_resolved (s : State) (a b d : Operand) (f : Int → Int → Except Raise Int)
    (h : s.paramsInBounds 3 ∧ s.readable a = true ∧ s.readable b = true ∧ s.writable d = true) :
    s.binaryToMemory a b d f =
      (f (s.operandValue a) (s.operandValue b) >>= fun r => .ok ((s.store (s.effectiveAddress d) r).advance 4)) := by
  obtain ⟨hp, ha, hb, hd⟩ := h
  obtain ⟨h0, h1, h2⟩ := s.paramsInBounds_three.mp hp
  unfold State.binaryToMemory
  rw [(s.readParam_ok_iff 0 a _).mpr ⟨h0, ha, rfl⟩, bind_ok, (s.readParam_ok_iff 1 b _).mpr ⟨h1, hb, rfl⟩, bind_ok,
    (s.writeParam_ok_iff 2 d _).mpr ⟨h2, hd, rfl⟩, bind_ok]
  rfl

theorem State.jumpWhen_ok_iff (s t : State) (a b : Operand) (taken : Int → Bool) :
    s.jumpWhen a b taken = .ok t ↔
      (s.paramsInBounds 2 ∧ s.readable a = true ∧ s.readable b = true) ∧
        t = if taken (s.operandValue a) then s.setPc (s.operandValue b) else s.advance 3 := by
  unfold State.jumpWhen
  simp only [bind_eq_ok, State.readParam_ok_iff, State.paramsInBounds_two, pure_eq_ok, Except.ok.injEq]
  constructor
  · rintro ⟨_, ⟨h0, ha, rfl⟩, _, ⟨h1, hb, rfl⟩, rfl⟩
    exact ⟨⟨⟨h0, h1⟩, ha, hb⟩, rfl⟩
  · rintro ⟨⟨⟨h0, h1⟩, ha, hb⟩, rfl⟩
    exact ⟨_, ⟨h0, ha, rfl⟩, _, ⟨h1, hb, rfl⟩, rfl⟩

/-! ## Each instruction: when it completes, and with what state -/

theorem effect_add_ok_iff (s t : State) (a b d : Operand) :
    s.effect (.add a b d) = .ok t ↔
      (s.paramsInBounds 3 ∧ s.readable a = true ∧ s.readable b = true ∧ s.writable d = true) ∧
        ∃ r, fit s.cfg (s.operandValue a + s.operandValue b) = .ok r ∧
          t = (s.store (s.effectiveAddress d) r).advance 4 :=
  s.binaryToMemory_ok_iff t a b d (aluAdd s.cfg)

theorem effect_mul_ok_iff (s t : State) (a b d : Operand) :
    s.effect (.mul a b d) = .ok t ↔
      (s.paramsInBounds 3 ∧ s.readable a = true ∧ s.readable b = true ∧ s.writable d = true) ∧
        ∃ r, fit s.cfg (s.operandValue a * s.operandValue b) = .ok r ∧
          t = (s.store (s.effectiveAddress d) r).advance 4 :=
  s.binaryToMemory_ok_iff t a b d (aluMul s.cfg)

theorem effect_lessThan_ok_iff (s t : State) (a b d : Operand) :
    s.effect (.lessThan a b d) = .ok t ↔
      (s.paramsInBounds 3 ∧ s.readable a = true ∧ s.readable b = true ∧ s.writable d = true) ∧
        t = (s.store (s.effectiveAddress d) (aluLt (s.operandValue a) (s.operandValue b))).advance 4 := by
  simpa [State.effect] using s.binaryToMemory_ok_iff t a b d (fun x y => .ok (aluLt x y))

theorem effect_equals_ok_iff (s t : State) (a b d : Operand) :
    s.effect (.equals a b d) = .ok t ↔
      (s.paramsInBounds 3 ∧ s.readable a = true ∧ s.readable b = true ∧ s.writable d = true) ∧
        t = (s.store (s.effectiveAddress d) (aluEq (s.operandValue a) (s.operandValue b))).advance 4 := by
  simpa [State.effect] using s.binaryToMemory_ok_iff t a b d (fun x y => .ok (aluEq x y))

theorem effect_input_ok_iff (s t : State) (d : Operand) :
    s.effect (.input d) = .ok t ↔
      (s.paramsInBounds 1 ∧ s.writable d = true) ∧ t = s.takeInput (s.effectiveAddress d) := by
  simp only [State.effect, bind_eq_ok, State.writeParam_ok_iff, State.paramsInBounds_one, pure_eq_ok, Except.ok.injEq]
  constructor
  · rintro ⟨_, ⟨h0, hd, rfl⟩, rfl⟩; exact ⟨⟨h0, hd⟩, rfl⟩
  · rintro ⟨⟨h0, hd⟩, rfl⟩; exact ⟨_, ⟨h0, hd, rfl⟩, rfl⟩

theorem effect_output_ok_iff (s t : State) (a : Operand) :
    s.effect (.output a) = .ok t ↔
      (s.paramsInBounds 1 ∧ s.readable a = true) ∧ t = (s.pushOutput (s.operandValue a)).advance 2 := by
  simp only [State.effect, bind_eq_ok, State.readParam_ok_iff, State.paramsInBounds_one, pure_eq_ok, Except.ok.injEq]
  constructor
  · rintro ⟨_, ⟨h0, hd, rfl⟩, rfl⟩; exact ⟨⟨h0, hd⟩, rfl⟩
  · rintro ⟨⟨h0, hd⟩, rfl⟩; exact ⟨_, ⟨h0, hd, rfl⟩, rfl⟩

theorem effect_jumpIfTrue_ok_iff (s t : State) (a b : Operand) :
    s.effect (.jumpIfTrue a b) = .ok t ↔
      (s.paramsInBounds 2 ∧ s.readable a = true ∧ s.readable b = true) ∧
        t = if s.operandValue a ≠ 0 then s.setPc (s.operandValue b) else s.advance 3 := by
  simpa [State.effect] using s.jumpWhen_ok_iff t a b (fun x => !zeroTest x)

theorem effect_jumpIfFalse_ok_iff (s t : State) (a b : Operand) :
    s.effect (.jumpIfFalse a b) = .ok t ↔
      (s.paramsInBounds 2 ∧ s.readable a = true ∧ s.readable b = true) ∧
        t = if s.operandValue a = 0 then s.setPc (s.operandValue b) else s.advance 3 := by
  simpa [State.effect] using s.jumpWhen_ok_iff t a b zeroTest

theorem effect_adjustRelativeBase_ok_iff (s t : State) (a : Operand) :
    s.effect (.adjustRelativeBase a) = .ok t ↔
      (s.paramsInBounds 1 ∧ s.readable a = true) ∧
        ∃ r, fit s.cfg (s.rb + s.operandValue a) = .ok r ∧ t = (s.setRb r).advance 2 := by
  simp only [State.effect, bind_eq_ok, State.readParam_ok_iff, State.paramsInBounds_one, pure_eq_ok, Except.ok.injEq]
  constructor
  · rintro ⟨_, ⟨h0, ha, rfl⟩, r, hr, rfl⟩; exact ⟨⟨h0, ha⟩, r, hr, rfl⟩
  · rintro ⟨⟨h0, ha⟩, r, hr, rfl⟩; exact ⟨_, ⟨h0, ha, rfl⟩, r, hr, rfl⟩

theorem effect_halt_ok_iff (s t : State) : s.effect .halt = .ok t ↔ t = s.stop := by
  simp [State.effect, eq_comm]

/-! ## Which faults an instruction can raise -/

theorem State.binaryToMemory_error (s : State) (a b d : Operand) (f : Int → Int → Except Raise Int) (e : Raise)
    (h : s.binaryToMemory a b d f = .error e) :
    (∃ k adr, e = raiseOutOfBounds adr (some k)) ∨
      (d.mode = .immediate ∧ e = { kind := .invalidWriteMode, param := some 2, mode := some 1 }) ∨
      f (s.operandValue a) (s.operandValue b) = .error e := by
  unfold State.binaryToMemory at h
  rcases bind_eq_error.mp h with h | ⟨x, hx, h⟩
  · obtain ⟨adr, rfl⟩ := s.readParam_error 0 a e h; exact .inl ⟨0, adr, rfl⟩
  rcases bind_eq_error.mp h with h | ⟨y, hy, h⟩
  · obtain ⟨adr, rfl⟩ := s.readParam_error 1 b e h; exact .inl ⟨1, adr, rfl⟩
  rcases bind_eq_error.mp h with h | ⟨ea, -, h⟩
  · rcases s.writeParam_error 2 d e h with ⟨adr, rfl⟩ | h
    · exact .inl ⟨2, adr, rfl⟩
    · exact .inr (.inl h)
  rcases bind_eq_error.mp h with h | ⟨r, -, h⟩
  · obtain ⟨-, -, rfl⟩ := (s.readParam_ok_iff 0 a x).mp hx
    obtain ⟨-, -, rfl⟩ := (s.readParam_ok_iff 1 b y).mp hy
    exact .inr (.inr h)
  · cases h

theorem State.jumpWhen_error (s : State) (a b : Operand) (taken : Int → Bool) (e : Raise)
    (h : s.jumpWhen a b taken = .error e) : ∃ k adr, e = raiseOutOfBounds adr (some k) := by
  unfold State.jumpWhen at h
  rcases bind_eq_error.mp h with h | ⟨x, -, h⟩
  · obtain ⟨adr, rfl⟩ := s.readParam_error 0 a e h; exact ⟨0, adr, rfl⟩
  rcases bind_eq_error.mp h with h | ⟨y, -, h⟩
  · obtain ⟨adr, rfl⟩ := s.readParam_error 1 b e h; exact ⟨1, adr, rfl⟩
  · cases h

/-- A fault of phases O and E (R88, R90, R150): `OutOfBounds` of a parameter; `Overflow` of an arithmetic result that is no
Word, under `fault`; or, on an ill-formed term only, `InvalidWriteMode`. -/
theorem effect_error (s : State) (i : Instr) (e : Raise) (h : s.effect i = .error e) :
    (∃ k adr, e = raiseOutOfBounds adr (some k)) ∨
      (e = { kind := .overflow } ∧ s.cfg.overflowMode = .fault ∧
        ((∃ a b d, i = .add a b d ∧ ¬ isWord s.cfg.wordBits (s.operandValue a + s.operandValue b)) ∨
          (∃ a b d, i = .mul a b d ∧ ¬ isWord s.cfg.wordBits (s.operandValue a * s.operandValue b)) ∨
          ∃ a, i = .adjustRelativeBase a ∧ ¬ isWord s.cfg.wordBits (s.rb + s.operandValue a))) ∨
      (∃ k, e = { kind := .invalidWriteMode, param := some k, mode := some 1 }) ∧
        ∃ d, (OperandKind.write, d) ∈ i.operands ∧ d.mode = .immediate := by
  cases i with
  | add a b d =>
    rcases s.binaryToMemory_error a b d _ e h with h | ⟨hd, rfl⟩ | h
    · exact .inl h
    · exact .inr (.inr ⟨⟨2, rfl⟩, d, by simp [Instr.operands], hd⟩)
    · obtain ⟨rfl, hv, hm⟩ := fit_error _ _ _ h
      exact .inr (.inl ⟨rfl, hm, .inl ⟨a, b, d, rfl, hv⟩⟩)
  | mul a b d =>
    rcases s.binaryToMemory_error a b d _ e h with h | ⟨hd, rfl⟩ | h
    · exact .inl h
    · exact .inr (.inr ⟨⟨2, rfl⟩, d, by simp [Instr.operands], hd⟩)
    · obtain ⟨rfl, hv, hm⟩ := fit_error _ _ _ h
      exact .inr (.inl ⟨rfl, hm, .inr (.inl ⟨a, b, d, rfl, hv⟩)⟩)
  | input d =>
    rcases bind_eq_error.mp h with h | ⟨_, _, h⟩
    · rcases s.writeParam_error 0 d e h with ⟨adr, rfl⟩ | ⟨hd, rfl⟩
      · exact .inl ⟨0, adr, rfl⟩
      · exact .inr (.inr ⟨⟨0, rfl⟩, d, by simp [Instr.operands], hd⟩)
    · cases h
  | output a =>
    rcases bind_eq_error.mp h with h | ⟨_, _, h⟩
    · obtain ⟨adr, rfl⟩ := s.readParam_error 0 a e h; exact .inl ⟨0, adr, rfl⟩
    · cases h
  | jumpIfTrue a b => exact .inl (s.jumpWhen_error a b _ e h)
  | jumpIfFalse a b => exact .inl (s.jumpWhen_error a b _ e h)
  | lessThan a b d =>
    rcases s.binaryToMemory_error a b d _ e h with h | ⟨hd, rfl⟩ | h
    · exact .inl h
    · exact .inr (.inr ⟨⟨2, rfl⟩, d, by simp [Instr.operands], hd⟩)
    · cases h
  | equals a b d =>
    rcases s.binaryToMemory_error a b d _ e h with h | ⟨hd, rfl⟩ | h
    · exact .inl h
    · exact .inr (.inr ⟨⟨2, rfl⟩, d, by simp [Instr.operands], hd⟩)
    · cases h
  | adjustRelativeBase a =>
    rcases bind_eq_error.mp h with h | ⟨x, hx, h⟩
    · obtain ⟨adr, rfl⟩ := s.readParam_error 0 a e h; exact .inl ⟨0, adr, rfl⟩
    · obtain ⟨-, -, rfl⟩ := (s.readParam_ok_iff 0 a x).mp hx
      rcases bind_eq_error.mp h with h | ⟨_, _, h⟩
      · obtain ⟨rfl, hv, hm⟩ := fit_error _ _ _ h
        exact .inr (.inl ⟨rfl, hm, .inr (.inr ⟨a, rfl, hv⟩)⟩)
      · cases h
  | halt => cases h

/-! ## The input instruction's two ends -/

@[simp] theorem State.takeInput_nil (s : State) (ea : Int) (h : s.inputs = []) : s.takeInput ea = s.suspend := by
  simp [State.takeInput, h]

theorem State.takeInput_cons (s : State) (ea : Int) (v : Int) (vs : List Int) (h : s.inputs = v :: vs) :
    s.takeInput ea = (s.dropInput.store ea v).advance 2 := by
  simp [State.takeInput, h]

theorem State.takeInput_cases (s : State) (ea : Int) :
    (s.inputs = [] ∧ s.takeInput ea = s.suspend) ∨
      ∃ v vs, s.inputs = v :: vs ∧ s.takeInput ea = (s.dropInput.store ea v).advance 2 := by
  cases h : s.inputs with
  | nil => exact .inl ⟨rfl, State.takeInput_nil s ea h⟩
  | cons v vs => exact .inr ⟨v, vs, rfl, State.takeInput_cons s ea v vs h⟩

/-! ## What a completed instruction leaves -/

/-- Everything a completed instruction can do, by shape: store a fitted or boolean Word and advance by 4; take an input or
suspend; append an output; set `pc`; adjust `rb`; halt. -/
theorem effect_ok_cases (s t : State) (i : Instr) (h : s.effect i = .ok t) :
    (∃ d v, (OperandKind.write, d) ∈ i.operands ∧ i.nparams = 3 ∧ s.writable d = true ∧
      t = (s.store (s.effectiveAddress d) v).advance 4 ∧ ((∃ x, fit s.cfg x = .ok v) ∨ v = 0 ∨ v = 1)) ∨
    (∃ d, i = .input d ∧ s.paramsInBounds 1 ∧ s.writable d = true ∧ t = s.takeInput (s.effectiveAddress d)) ∨
    (∃ a, i = .output a ∧ t = (s.pushOutput (s.operandValue a)).advance 2) ∨
    (∃ a b, (i = .jumpIfTrue a b ∨ i = .jumpIfFalse a b) ∧ (t = s.setPc (s.operandValue b) ∨ t = s.advance 3)) ∨
    (∃ a r, i = .adjustRelativeBase a ∧ fit s.cfg (s.rb + s.operandValue a) = .ok r ∧ t = (s.setRb r).advance 2) ∨
    (i = .halt ∧ t = s.stop) := by
  cases i with
  | add a b d =>
    obtain ⟨⟨-, -, -, hd⟩, r, hr, rfl⟩ := (effect_add_ok_iff s t a b d).mp h
    exact .inl ⟨d, r, by simp [Instr.operands], rfl, hd, rfl, .inl ⟨_, hr⟩⟩
  | mul a b d =>
    obtain ⟨⟨-, -, -, hd⟩, r, hr, rfl⟩ := (effect_mul_ok_iff s t a b d).mp h
    exact .inl ⟨d, r, by simp [Instr.operands], rfl, hd, rfl, .inl ⟨_, hr⟩⟩
  | input d =>
    obtain ⟨⟨hp, hd⟩, rfl⟩ := (effect_input_ok_iff s t d).mp h
    exact .inr (.inl ⟨d, rfl, hp, hd, rfl⟩)
  | output a =>
    obtain ⟨-, rfl⟩ := (effect_output_ok_iff s t a).mp h
    exact .inr (.inr (.inl ⟨a, rfl, rfl⟩))
  | jumpIfTrue a b =>
    obtain ⟨-, rfl⟩ := (effect_jumpIfTrue_ok_iff s t a b).mp h
    refine .inr (.inr (.inr (.inl ⟨a, b, .inl rfl, ?_⟩)))
    split <;> simp
  | jumpIfFalse a b =>
    obtain ⟨-, rfl⟩ := (effect_jumpIfFalse_ok_iff s t a b).mp h
    refine .inr (.inr (.inr (.inl ⟨a, b, .inr rfl, ?_⟩)))
    split <;> simp
  | lessThan a b d =>
    obtain ⟨⟨-, -, -, hd⟩, rfl⟩ := (effect_lessThan_ok_iff s t a b d).mp h
    exact .inl ⟨d, _, by simp [Instr.operands], rfl, hd, rfl, .inr (aluLt_cases _ _)⟩
  | equals a b d =>
    obtain ⟨⟨-, -, -, hd⟩, rfl⟩ := (effect_equals_ok_iff s t a b d).mp h
    exact .inl ⟨d, _, by simp [Instr.operands], rfl, hd, rfl, .inr (aluEq_cases _ _)⟩
  | adjustRelativeBase a =>
    obtain ⟨-, r, hr, rfl⟩ := (effect_adjustRelativeBase_ok_iff s t a).mp h
    exact .inr (.inr (.inr (.inr (.inl ⟨a, r, rfl, hr, rfl⟩))))
  | halt => exact .inr (.inr (.inr (.inr (.inr ⟨rfl, (effect_halt_ok_iff s t).mp h⟩))))

/-- No instruction changes the configuration or the fault record as it completes. -/
theorem effect_cfg_flt (s t : State) (i : Instr) (h : s.effect i = .ok t) : t.cfg = s.cfg ∧ t.flt = s.flt := by
  rcases effect_ok_cases s t i h with ⟨d, v, -, -, -, rfl, -⟩ | ⟨d, -, -, -, rfl⟩ | ⟨a, -, rfl⟩ | ⟨a, b, -, rfl | rfl⟩ |
    ⟨a, r, -, -, rfl⟩ | ⟨-, rfl⟩ <;> try exact ⟨rfl, rfl⟩
  rcases s.takeInput_cases (s.effectiveAddress d) with ⟨-, h⟩ | ⟨v, vs, -, h⟩ <;> rw [h] <;> exact ⟨rfl, rfl⟩

end Sys2Proof.Machine
end

