-- ==== Sys2Proof/Laws/Step.lean ====
section
/-! SUPPORT. Phases F and D, the step and the run: what each can do, once. -/

namespace Sys2Proof.Machine

/-! ## Phases F and D -/

theorem State.fetch_eq (s : State) :
    s.fetch = if s.inBounds s.pc then .ok (s.mem.get s.pc.toNat) else .error (raiseOutOfBounds s.pc none) := rfl

/-- Phases F and D in every case. -/
theorem State.fetchDecode_eq (s : State) :
    s.fetchDecode =
      if s.inBounds s.pc then s.decodeFetched (s.mem.get s.pc.toNat) else .error (raiseOutOfBounds s.pc none) := by
  unfold State.fetchDecode
  rw [State.fetch_eq]
  by_cases h : s.inBounds s.pc <;> simp [h]

/-- The instruction at `pc` is what `decode` reads from the words there. -/
theorem State.decodeFetched_ok_iff (s : State) (i : Instr) :
    s.decodeFetched (s.mem.get s.pc.toNat) = .ok i ↔ ∃ rest, decode s.cfg s.wordsAtPc = .ok (i, rest) := by
  unfold State.wordsAtPc State.decodeFetched
  simp only [decode_cons_ok_iff]
  constructor
  · exact fun h => ⟨_, h, by simpa using i.nparams_le, rfl⟩
  · rintro ⟨_, h, -, -⟩; exact h

theorem State.decodeFetched_error_iff (s : State) (e : Raise) :
    s.decodeFetched (s.mem.get s.pc.toNat) = .error e ↔ decode s.cfg s.wordsAtPc = .error (.illegal e) := by
  unfold State.wordsAtPc State.decodeFetched
  simp only [decode, List.getD_cons_zero, List.getD_cons_succ, State.peek]
  cases h : decodeWord s.cfg (s.mem.get s.pc.toNat) (s.mem.get (s.pc + 1).toNat) (s.mem.get (s.pc + 2).toNat)
      (s.mem.get (s.pc + 3).toNat) with
  | error r => simp
  | ok i =>
    have := i.nparams_le
    simp [show ¬ (3 < i.nparams) by omega]

@[simp] theorem State.resume_of_ready (s : State) (h : s.st = .ready) : s.resume = s := by
  cases s; simp_all [State.resume]

@[simp] theorem State.fetchDecode_resume (s : State) : s.resume.fetchDecode = s.fetchDecode := rfl

@[simp] theorem State.inBounds_resume (s : State) (a : Int) : s.resume.inBounds a = s.inBounds a := rfl

@[simp] theorem State.wordAtPc_resume (s : State) : s.resume.wordAtPc = s.wordAtPc := rfl

theorem State.wordAtPc_of_inBounds (s : State) (h : s.inBounds s.pc = true) :
    s.wordAtPc = some (s.mem.get s.pc.toNat) := by
  simp [State.wordAtPc, h]

theorem State.wordAtPc_of_outOfBounds (s : State) (h : s.inBounds s.pc = false) : s.wordAtPc = none := by
  simp [State.wordAtPc, h]

/-- The entry of a fault from `Ready` is the entry from the state before it: only `st` and `flt` differ. -/
theorem State.faultEntry_resume (s : State) (e : Raise) : s.resume.faultEntry e = s.faultEntry e := rfl

/-! ## The step -/

theorem step_terminal (s : State) (h : s.st.terminal = true) : step s = .next s := by
  simp [step, h]

theorem step_active (s : State) (h : s.st.terminal = false) : step s = stepInstr s.resume := by
  simp [step, h]

theorem ExecState.terminal_eq_false (x : ExecState) : x.terminal = false ↔ x = .ready ∨ x = .waiting := by
  cases x <;> simp [ExecState.terminal]

theorem ExecState.terminal_eq_true (x : ExecState) : x.terminal = true ↔ x = .halted ∨ x = .faulted := by
  cases x <;> simp [ExecState.terminal]

theorem stepInstr_of_ok (s : State) (i : Instr) (h : s.fetchDecode = .ok i) : stepInstr s = exec i s := by
  simp [stepInstr, h]

theorem stepInstr_of_error (s : State) (e : Raise) (h : s.fetchDecode = .error e) :
    stepInstr s = .next (s.faultEntry e) := by
  simp [stepInstr, h]

/-- Every instruction of every state answers a next state. -/
theorem exec_next (i : Instr) (s : State) : ∃ t, exec i s = .next t := by
  rw [exec_eq_complete]
  cases s.effect i with
  | ok t => exact ⟨t, rfl⟩
  | error e => exact ⟨_, rfl⟩

theorem stepInstr_next (s : State) : ∃ t, stepInstr s = .next t := by
  cases h : s.fetchDecode with
  | ok i => rw [stepInstr_of_ok s i h]; exact exec_next i s
  | error e => exact ⟨_, stepInstr_of_error s e h⟩

/-- What `Step()` can do: enter a fault of phase F or D, enter a fault of the fetched instruction, or complete it. -/
theorem stepInstr_cases (s t : State) (h : stepInstr s = .next t) :
    (∃ e, s.fetchDecode = .error e ∧ t = s.faultEntry e) ∨
      ∃ i, s.fetchDecode = .ok i ∧ (s.effect i = .ok t ∨ ∃ e, s.effect i = .error e ∧ t = s.faultEntry e) := by
  cases hd : s.fetchDecode with
  | error e =>
    rw [stepInstr_of_error s e hd] at h
    cases h; exact .inl ⟨e, rfl, rfl⟩
  | ok i =>
    rw [stepInstr_of_ok s i hd, exec_eq_complete, State.complete_eq_next] at h
    exact .inr ⟨i, rfl, h⟩

/-- What a step can do: nothing in a terminal state, else `Step()` from `Ready`. -/
theorem step_cases (s t : State) (h : step s = .next t) :
    (s.st.terminal = true ∧ t = s) ∨ (s.st.terminal = false ∧ stepInstr s.resume = .next t) := by
  cases hs : s.st.terminal with
  | true => rw [step_terminal s hs] at h; cases h; exact .inl ⟨rfl, rfl⟩
  | false => rw [step_active s hs] at h; exact .inr ⟨rfl, h⟩

/-- A decoded instruction is well formed where memory holds Words (R64, R69). -/
theorem State.wellFormed_of_fetchDecode (s : State) (i : Instr) (h : s.fetchDecode = .ok i)
    (hm : ∀ a, isWord s.cfg.wordBits (s.mem.get a)) : i.wellFormed s.cfg.wordBits := by
  rw [State.fetchDecode_eq] at h
  split at h
  · obtain ⟨-, -, hmodes, -, hp⟩ := (decodeWord_ok_iff _ _ _ _ _ _).mp h
    intro p hpm
    obtain ⟨k, hk, rfl⟩ := List.getElem_of_mem hpm
    constructor
    · have : (i.operands[k]).2.param ∈ i.operands.map (fun p => p.2.param) := List.mem_map.mpr ⟨_, hpm, rfl⟩
      rw [hp] at this
      have := List.mem_of_mem_take this
      simp only [List.mem_cons, List.not_mem_nil, or_false, State.peek] at this
      rcases this with h | h | h <;> rw [h] <;> exact hm _
    · exact ((decodeMode_ok_iff _ _ _ _).mp (hmodes k hk)).2
  · cases h

/-! ## The run -/

theorem runLoop_succ (n : Nat) (s t : State) (h : stepInstr s = .next t) :
    runLoop (n + 1) s = if t.st = .ready then runLoop n t else some t := by
  simp [runLoop, h]

/-- Running `core` one step and then `n`. -/
theorem run_core_succ (n : Nat) (s t : State) (h : step s = .next t) :
    Host.Core.run core (n + 1) s = Host.Core.run core n t := by
  simp only [Host.Core.run, core, h]

end Sys2Proof.Machine
end

