-- ==== Sys2Proof/Machine/Drive.lean ====
section
/-! DEFINITION. The host's ways of driving one instance (spec/60_exceptions.md R170, spec/70_reset_and_hazards.md R183), over the
operations of R165. Wiring several instances together is out of scope (spec/00_scope.md R6). -/

namespace Sys2Proof.Machine

/-- Single-shot: all inputs up front, one `run`, then the outputs (R170). None when the run has not ended by `fuel`. -/
def singleShot (fuel : Nat) (cfg : Config) (program : ProgramSource) (inputs : List Int) :
    Except HostError (Option (State × List Int)) := do
  let s ← create cfg program inputs
  return (run fuel s).map (fun t => (t, t.readOutputs))

/-- The interactive loop: `run`; while `Waiting`, push the next input, computed from the outputs so far, and `run` again; stop
in any other state (R170). At most `turns` runs of `fuel` steps. -/
def interact (reply : List Int → Int) (fuel : Nat) : (turns : Nat) → State → Option State
  | 0, _ => none
  | turns + 1, s =>
    match run fuel s with
    | none => none
    | some t => if t.st = .waiting then interact reply fuel turns (t.pushInput (reply t.readOutputs)) else some t

end Sys2Proof.Machine
end

