-- ==== Sys2Proof/Laws/Invariant.lean ====
section
/-! SUPPORT. What the invariant gives, and the pieces of it that each operation keeps. -/

namespace Sys2Proof.Machine

/-- Under the invariant every Word of memory is a Word. -/
theorem State.isWord_get (s : State) (hc : s.cfg.valid) (hm : s.memInRange) (a : Nat) :
    isWord s.cfg.wordBits (s.mem.get a) := by
  rcases Memory.get_cases s.mem a with h | h
  · rw [h]; exact isWord_small s.cfg hc 0 (by norm_num)
  · exact (hm _ h).2

/-- A read operand's value is a Word where its parameter word is one. -/
theorem State.isWord_operandValue (s : State) (hc : s.cfg.valid) (hm : s.memInRange) (o : Operand)
    (ho : isWord s.cfg.wordBits o.param) : isWord s.cfg.wordBits (s.operandValue o) := by
  unfold State.operandValue
  cases o.mode
  · exact s.isWord_get hc hm _
  · exact ho
  · exact s.isWord_get hc hm _

/-- A write of a Word in bounds keeps memory in range. -/
theorem State.memInRange_store (s : State) (hm : s.memInRange) (a v : Int) (ha : s.inBounds a = true)
    (hv : isWord s.cfg.wordBits v) : (s.store a v).memInRange := by
  intro c hc
  rcases Memory.mem_set _ _ _ _ hc with rfl | hc
  · have := (s.inBounds_iff a).mp ha
    exact ⟨by simp only [State.store_cfg]; omega, hv⟩
  · exact hm c hc

/-- Where no fault has been taken there is no record. -/
theorem State.faultRecordOk_of_none (s : State) (h : s.flt = none) (hs : s.st ≠ .faulted) : s.faultRecordOk :=
  ⟨by simp [h, hs], by simp [h]⟩

/-- A load of a program of Words fills memory in range. -/
theorem State.memInRange_initial (cfg : Config) (ws ins : List Int) (hl : ws.length ≤ cfg.cap)
    (hw : ∀ v ∈ ws, isWord cfg.wordBits v) : (State.initial cfg ws ins).memInRange := by
  intro c hc
  obtain ⟨-, h2, -, h4⟩ := Memory.mem_load ws 0 c hc
  exact ⟨by simpa [State.initial] using lt_of_lt_of_le h2 (by omega), hw _ h4⟩

/-- When `create` succeeds, and with what state (R180). -/
theorem create_ok_iff (cfg : Config) (p : ProgramSource) (ins : List Int) (s : State) :
    create cfg p ins = .ok s ↔
      ∃ ws, p.toWords cfg.wordBits = .ok ws ∧ ws.length ≤ cfg.cap ∧ cfg.cap + 4 ≤ 2 ^ (cfg.wordBits - 1) ∧
        s = State.initial cfg ws ins := by
  unfold create
  cases p.toWords cfg.wordBits with
  | error e => simp [bind, Except.bind]
  | ok ws =>
    simp only [bind, Except.bind]
    split_ifs with h1 h2
    · simp; omega
    · simp; omega
    · simp only [Except.ok.injEq, exists_eq_left']
      exact ⟨fun h => ⟨by omega, by omega, h.symm⟩, fun h => h.2.2.symm⟩

end Sys2Proof.Machine
end

