-- ==== Sys2Proof/Laws/PerInstr.lean ====
section
/-! SUPPORT. A fact about every instruction as syntax, one lemma per constructor: the shape of its encoding (R60 to R62). -/

namespace Sys2Proof.Laws.EncodingShape

/-- The encoding is one instruction word and one word per parameter, four at most; the instruction word is its opcode plus
hundreds, no negative number, and no greater than `22299`. -/
def Statement (i : Instr) : Prop :=
  (encode i).length = 1 + i.nparams ∧ i.nparams ≤ 3 ∧ 0 ≤ i.headWord ∧ i.headWord ≤ 22299 ∧ i.headWord.tmod 100 = i.opcode

theorem head_bounds (op : Nat) (h : op < 100) (m0 m1 m2 : Mode) :
    0 ≤ instrWord op m0 m1 m2 ∧ instrWord op m0 m1 m2 ≤ 22299 ∧ (instrWord op m0 m1 m2).tmod 100 = op := by
  obtain ⟨a, b, c, ha, hb, hc, -, -, -, hw⟩ := instrWord_natCast op m0 m1 m2
  obtain ⟨h0, ho, -⟩ := instrWord_fields op h m0 m1 m2
  exact ⟨h0, by rw [hw]; omega, ho⟩

theorem add (a b dest : Operand) : Statement (.add a b dest) :=
  ⟨rfl, Instr.nparams_le _, head_bounds 1 (by norm_num) a.mode b.mode dest.mode⟩

theorem mul (a b dest : Operand) : Statement (.mul a b dest) :=
  ⟨rfl, Instr.nparams_le _, head_bounds 2 (by norm_num) a.mode b.mode dest.mode⟩

theorem input (dest : Operand) : Statement (.input dest) :=
  ⟨rfl, Instr.nparams_le _, head_bounds 3 (by norm_num) dest.mode .position .position⟩

theorem output (a : Operand) : Statement (.output a) :=
  ⟨rfl, Instr.nparams_le _, head_bounds 4 (by norm_num) a.mode .position .position⟩

theorem jumpIfTrue (a b : Operand) : Statement (.jumpIfTrue a b) :=
  ⟨rfl, Instr.nparams_le _, head_bounds 5 (by norm_num) a.mode b.mode .position⟩

theorem jumpIfFalse (a b : Operand) : Statement (.jumpIfFalse a b) :=
  ⟨rfl, Instr.nparams_le _, head_bounds 6 (by norm_num) a.mode b.mode .position⟩

theorem lessThan (a b dest : Operand) : Statement (.lessThan a b dest) :=
  ⟨rfl, Instr.nparams_le _, head_bounds 7 (by norm_num) a.mode b.mode dest.mode⟩

theorem equals (a b dest : Operand) : Statement (.equals a b dest) :=
  ⟨rfl, Instr.nparams_le _, head_bounds 8 (by norm_num) a.mode b.mode dest.mode⟩

theorem adjustRelativeBase (a : Operand) : Statement (.adjustRelativeBase a) :=
  ⟨rfl, Instr.nparams_le _, head_bounds 9 (by norm_num) a.mode .position .position⟩

theorem halt : Statement .halt :=
  ⟨rfl, Instr.nparams_le _, head_bounds 99 (by norm_num) .position .position .position⟩

end Sys2Proof.Laws.EncodingShape
end

