-- ==== Sys2Proof/Tests/Slice0.lean ====
section
/-! SUPPORT. Tests: expected results are the vectors of spec/95_test_vectors.md (V1 to V82) and the examples of the rules, and
witnesses that the statements' hypotheses can be met. -/

namespace Sys2Proof.Tests

open Sys2Proof.Machine Sys2Proof.Claims

/-! ## Small states -/

def cfgOf (cap : Nat) (o : OverflowMode) (e : ExcessDigits) : Config :=
  { wordBits := 64, cap := cap, overflowMode := o, excessDigits := e }

/-- A machine whose whole memory is `ws`, as the vectors give it. -/
def vm (ws : List Int) (o : OverflowMode := .fault) (e : ExcessDigits := .ignore) : State :=
  State.initial (cfgOf ws.length o e) ws []

/-- The state after one step. -/
def after (s : State) : State :=
  match step s with
  | .next t => t
  | .fault _ => s
  | .refused _ => s

/-- The fault record after one step, without its `pc`. -/
def faultAfter (s : State) : Option (FaultKind × Option Int × Option Nat × Option Int × Option Int) :=
  (after s).flt.map (fun r => (r.kind, r.word, r.param, r.mode, r.addr))

def MIN : Int := -9223372036854775808
def MAX : Int := 9223372036854775807

/-! ## WellFormed: each check refuses an ill-formed term -/

theorem test_wellFormed_accepts : (Instr.add ⟨.immediate, MAX⟩ ⟨.relative, MIN⟩ ⟨.position, 3⟩).wellFormed 64 := by decide
theorem test_wellFormed_refuses_immediate_write : ¬ (Instr.input ⟨.immediate, 5⟩).wellFormed 64 := by decide
theorem test_wellFormed_refuses_immediate_dest :
    ¬ (Instr.equals ⟨.position, 1⟩ ⟨.position, 1⟩ ⟨.immediate, 1⟩).wellFormed 64 := by decide
theorem test_wellFormed_refuses_param_above : ¬ (Instr.output ⟨.immediate, MAX + 1⟩).wellFormed 64 := by decide
theorem test_wellFormed_refuses_param_below : ¬ (Instr.jumpIfTrue ⟨.position, 0⟩ ⟨.immediate, MIN - 1⟩).wellFormed 64 := by
  decide

/-! ## Decoding: a word of every constructor, written out digit by digit from R61 and R62 -/

def std : Config := Config.standard 4096

-- 21001: m2 = 2, m1 = 1, m0 = 0, op = 01
theorem test_decode_add : decode std [21001, 7, -8, 9] =
    .ok (.add ⟨.position, 7⟩ ⟨.immediate, -8⟩ ⟨.relative, 9⟩, []) := by decide
-- 02102: m2 = 0, m1 = 2, m0 = 1, op = 02
theorem test_decode_mul : decode std [2102, 7, 8, 9] =
    .ok (.mul ⟨.immediate, 7⟩ ⟨.relative, 8⟩ ⟨.position, 9⟩, []) := by decide
-- 203: m0 = 2, op = 03
theorem test_decode_input : decode std [203, 1, 5] = .ok (.input ⟨.relative, 1⟩, [5]) := by decide
-- 104: m0 = 1, op = 04
theorem test_decode_output : decode std [104, -7] = .ok (.output ⟨.immediate, -7⟩, []) := by decide
-- 1205: m1 = 1, m0 = 2, op = 05
theorem test_decode_jumpIfTrue : decode std [1205, 3, 4] = .ok (.jumpIfTrue ⟨.relative, 3⟩ ⟨.immediate, 4⟩, []) := by decide
-- 2106: m1 = 2, m0 = 1, op = 06
theorem test_decode_jumpIfFalse : decode std [2106, 3, 4] = .ok (.jumpIfFalse ⟨.immediate, 3⟩ ⟨.relative, 4⟩, []) := by
  decide
-- 20107: m2 = 2, m1 = 0, m0 = 1, op = 07
theorem test_decode_lessThan : decode std [20107, 3, 4, 5] =
    .ok (.lessThan ⟨.immediate, 3⟩ ⟨.position, 4⟩ ⟨.relative, 5⟩, []) := by decide
-- 01208: m2 = 0, m1 = 1, m0 = 2, op = 08
theorem test_decode_equals : decode std [1208, 3, 4, 5] =
    .ok (.equals ⟨.relative, 3⟩ ⟨.immediate, 4⟩ ⟨.position, 5⟩, []) := by decide
-- 209: m0 = 2, op = 09
theorem test_decode_adjustRelativeBase : decode std [209, 3] = .ok (.adjustRelativeBase ⟨.relative, 3⟩, []) := by decide
-- 99: op = 99
theorem test_decode_halt : decode std [99, 1] = .ok (.halt, [1]) := by decide
theorem test_decode_truncated : decode std [1, 0, 0] = .error .truncated := by decide
theorem test_decode_empty : decode std [] = .error .noWord := by decide

/-- The opcode table's numbering: `add` with three operand words of zeros, one 64-bit word given. -/
theorem test_decodeTableWord : decodeTableWord 64 1101 =
    some (.add ⟨.immediate, 0⟩ ⟨.immediate, 0⟩ ⟨.position, 0⟩) := by decide
theorem test_decodeTableWord_operand : decodeTableWord 128 (104 + (2 ^ 64 - 7) * 2 ^ 64) = some (.output ⟨.immediate, -7⟩) := by
  decide
theorem test_withFetchWord_runs :
    (after (State.reset.withFetchWord 128 (104 + 5 * 2 ^ 64))).outputs = [5] := by decide

/-- With nothing loaded, the word 0 at the reset address is no opcode (log 4, R66). -/
theorem test_reset_without_program : faultAfter State.reset = some (.invalidOpcode, some 0, none, none, none) := by decide

/-! ## The assembler's forms (R72, R73) -/

theorem test_asm : (Instr.add ⟨.position, 100⟩ ⟨.immediate, 1⟩ ⟨.relative, -3⟩).asm = "add [100], #1, [rb-3]".toList := by
  decide
theorem test_pseudo_jmp : encode (pseudoJmp ⟨.immediate, 6⟩) = [1105, 1, 6] := by decide
theorem test_pseudo_mov : encode (pseudoMov ⟨.position, 3⟩ ⟨.position, 5⟩) = [1001, 3, 0, 5] := by decide
theorem test_pseudo_nop : encode pseudoNop = [1105, 0, 0] := by decide

/-! ## Decoder vectors (V2 to V15) -/

theorem test_V2 : faultAfter (vm [50, 0, 0, 0]) = some (.invalidOpcode, some 50, none, none, none) := by decide
theorem test_V5 : faultAfter (vm [-99]) = some (.invalidOpcode, some (-99), none, none, none) := by decide
theorem test_V7 : (after (vm [199])).st = .halted := by decide
theorem test_V8 : faultAfter (vm [199] .fault .reject) = some (.invalidMode, some 199, some 0, some 1, none) := by decide
theorem test_V10 : faultAfter (vm [10104, 7] .fault .reject) = some (.invalidMode, some 10104, some 2, some 1, none) := by
  decide
theorem test_V12 : faultAfter (vm [13001, 0, 0, 0]) = some (.invalidMode, some 13001, some 1, some 3, none) := by decide
theorem test_V13 : faultAfter (vm [11101, 1, 1, 0]) = some (.invalidWriteMode, some 11101, some 2, some 1, none) := by decide
theorem test_V14 : faultAfter (vm [103, 5]) = some (.invalidWriteMode, some 103, some 0, some 1, none) := by decide
theorem test_V15 : faultAfter (vm [4611686018427387904, 0]) =
    some (.invalidMode, some 4611686018427387904, some 0, some 9, none) := by decide

/-! ## Address modes and bounds (V16 to V25) -/

theorem test_V16 : (after ((vm [22201, 1, 2, 3, 10, 20]).setRb 2)).mem.get 5 = 13 := by decide
theorem test_V20 : (after ((vm [204, 10, 0, 0, 0, 66]).setRb (-5))).outputs = [66] := by decide
theorem test_V22 : faultAfter (vm [204, -1]) = some (.outOfBounds, some 204, some 0, none, some (-1)) := by decide
theorem test_V23 : faultAfter (vm [1101, 1, 1, 50]) = some (.outOfBounds, some 1101, some 2, none, some 50) := by decide
theorem test_V24 : faultAfter (vm [1, 0, 0]) = some (.outOfBounds, some 1, some 2, none, some 3) := by decide
theorem test_V25 : faultAfter ((vm [1101, 1, 1, 0]).setPc 4) = some (.outOfBounds, none, none, none, some 4) := by decide

/-! ## Instructions, one step each -/

theorem test_V28_add_onto_itself : (after (vm [1, 0, 0, 0])).mem = [(0, 2)] ∧ (after (vm [1, 0, 0, 0])).pc = 4 := by decide
theorem test_V31_add_wraps : (after (vm [1101, MIN, -1, 4, 0] .wrap)).mem.get 4 = MAX := by decide
theorem test_V29_add_overflows : faultAfter (vm [1101, MAX, 1, 4, 0]) = some (.overflow, some 1101, none, none, none) := by
  decide
theorem test_V34_mul : (after (vm [1102, -3, -4, 4, 0])).mem.get 4 = 12 := by decide
theorem test_V40_mul_wraps : (after (vm [1102, 3037000500, 3037000500, 4, 0] .wrap)).mem.get 4 = -9223372036709301616 := by
  decide
theorem test_V45_lessThan : (after (vm [1107, MIN, MAX, 4, 9])).mem.get 4 = 1 := by decide
theorem test_V46_lessThan_onto_source : (after (vm [7, 5, 5, 5, 0, 3])).mem.get 5 = 0 := by decide
theorem test_V48_equals : (after (vm [1108, -5, 5, 4, 9])).mem.get 4 = 0 := by decide
theorem test_V49_equals_onto_source : (after (vm [8, 4, 4, 4, -9])).mem.get 4 = 1 := by decide
theorem test_V52_jumpIfTrue_negative : (after (vm [1105, -1, 9])).pc = 9 := by decide
theorem test_V54_jumpIfTrue_resolves_untaken_target :
    faultAfter (vm [5, 3, 9, 0]) = some (.outOfBounds, some 5, some 1, none, some 9) := by decide
/-- Target mode digit 1 is immediate by R61 and R121; V53 and R123's example say otherwise (log 18). -/
theorem test_jumpIfTrue_immediate_target : (after (vm [1005, 3, 4, 7, 2])).pc = 4 := by decide
/-- P5's own use of the word 1005, `jt [22], #15` at 8 with `mem[22] = 1`: to 15, though `mem[15]` is 4. -/
theorem test_P5_jumpIfTrue_target :
    (after ((vm [3, 20, 3, 21, 7, 20, 21, 22, 1005, 22, 15, 4, 20, 99, 0, 4, 21, 99, 0, 0, 3, 9, 1]).setPc 8)).pc = 15 := by
  decide
/-- Target mode digit 0: the target is read from `mem[4]` (R86, R121). -/
theorem test_jumpIfTrue_position_target : (after (vm [5, 3, 4, 7, 2])).pc = 2 := by decide
theorem test_V55_jumpIfFalse : (after (vm [1106, 0, 9])).pc = 9 := by decide
theorem test_V56_jumpIfFalse : (after (vm [1106, 7, 9])).pc = 3 := by decide
theorem test_V58_input : (after ((vm [3, 3, 0, 0]).pushInput 5 |>.pushInput 6)).mem.get 3 = 5 ∧
    (after ((vm [3, 3, 0, 0]).pushInput 5 |>.pushInput 6)).inputs = [6] := by decide
theorem test_V59_input_waits : after (vm [3, 3, 0, 0]) = { vm [3, 3, 0, 0] with st := .waiting } := by decide
theorem test_V62_input_faults : faultAfter (vm [3, 9]) = some (.outOfBounds, some 3, some 0, none, some 9) := by decide
theorem test_V63_output : (after (vm [104, -7])).outputs = [-7] ∧ (after (vm [104, -7])).pc = 2 := by decide
theorem test_V66_adjust_with_old_rb : (after ((vm [209, 3, 0, 0, 0, 10]).setRb 2)).rb = 12 := by decide
theorem test_V69_adjust_wraps : (after ((vm [109, 1] .wrap).setRb MAX)).rb = MIN := by decide
theorem test_V70_halt : (after ((vm [1, 0, 0, 0, 99]).setPc 4)).st = .halted ∧
    (after ((vm [1, 0, 0, 0, 99]).setPc 4)).pc = 4 := by decide

/-! ## Construction and the host (V71 to V82) -/

theorem test_V72_trailing_whitespace : parseProgram 64 "1,2 \r\n".toList = .ok [1, 2] := by decide
theorem test_V73_signs_and_zeros : parseProgram 64 "+5,-0,007".toList = .ok [5, 0, 7] := by decide
theorem test_V74_inner_whitespace : parseProgram 64 "1, 2".toList = .error .malformedProgram := by decide
theorem test_V75_empty_text : parseProgram 64 [] = .error .malformedProgram := by decide
theorem test_V76_trailing_comma : parseProgram 64 "1,2,".toList = .error .malformedProgram := by decide
theorem test_V78_too_wide : parseProgram 64 "9223372036854775808".toList = .error .malformedProgram := by decide
theorem test_V71_create : create (cfgOf 8 .fault .ignore) (.text "1,2,3\n".toList) [] =
    .ok (State.initial (cfgOf 8 .fault .ignore) [1, 2, 3] []) := by decide
theorem test_V79_capacity_too_small : create (cfgOf 2 .fault .ignore) (.words [1, 2, 3]) [] = .error .capacityTooSmall := by
  decide
theorem test_capacity_too_large :
    create (cfgOf (2 ^ 63 - 3) .fault .ignore) (.words [1]) [] = .error .capacityTooLarge := by decide
theorem test_V80_pop_empty : (vm [99]).popOutput = none := by decide
theorem test_V81_read_outside : (vm [99]).hostRead 1 = .error .hostAddressOutOfRange := by decide
theorem test_V82_halted_stays : run 1 (((vm [99]).stop).pushInput 5) = some (((vm [99]).stop).pushInput 5) := by decide

/-! ## Witnesses: the hypotheses of each statement are met, clause by clause

Each `witness_<statement>` names the statement of Obligations.lean whose hypotheses it meets. -/

theorem witness_DecodeOfEncodeIsIdentity :
    (Instr.mul ⟨.immediate, MAX⟩ ⟨.relative, MIN⟩ ⟨.relative, MAX⟩).wellFormed (cfgOf 4 .wrap .reject).wordBits := by decide

theorem witness_EncodeOfDecodeIsIdentityUnderReject :
    (cfgOf 4 .fault .reject).excessDigits = .reject ∧
      decode (cfgOf 4 .fault .reject) [22202, 1, MIN, MAX, 7] =
        .ok (.mul ⟨.relative, 1⟩ ⟨.relative, MIN⟩ ⟨.relative, MAX⟩, [7]) := by decide

theorem witness_ExcessDigitsAreIgnored :
    (cfgOf 4 .fault .ignore).excessDigits = .ignore ∧ (0 : Int) ≤ 104 ∧ paramKinds ((104 : Int).tmod 100) = some [.read] ∧
      (104 : Int) + ((10 : Nat) : Int) * 10 ^ ([OperandKind.read].length + 2) = 10104 := by decide

theorem witness_LegalEncodings_words :
    decodeWord std 20107 MIN 0 MAX = .ok (.lessThan ⟨.immediate, MIN⟩ ⟨.position, 0⟩ ⟨.relative, MAX⟩) ∧
      isWord 64 MIN ∧ isWord 64 MAX := by decide

theorem witness_LegalEncodings_faults :
    decodeWord std (-1) 0 0 0 = .error { kind := .invalidOpcode } ∧
      decodeWord std 303 0 0 0 = .error { kind := .invalidMode, param := some 0, mode := some 3 } ∧
      decodeWord std 103 0 0 0 = .error { kind := .invalidWriteMode, param := some 0, mode := some 1 } := by decide

theorem witness_LengthFromOpcodeAlone :
    decode std [1105, 3, 4, 5] = .ok (.jumpIfTrue ⟨.immediate, 3⟩ ⟨.immediate, 4⟩, [5]) ∧
      paramKinds ((98 : Int).tmod 100) = none ∧ paramKinds ((-1 : Int).tmod 100) = none := by decide

theorem witness_IllegalOpcodeFaults : ∀ w ∈ [(0 : Int), 10, 50, 98, 100, -1, -99, MIN],
    active (vm [w]) ∧ fetches (vm [w]) w ∧ ¬ legalOpcode (w.tmod 100) := by decide

theorem witness_LowestIllegalModeFaults_parameter :
    active (vm [90101]) ∧ fetches (vm [90101]) 90101 ∧ (0 : Int) ≤ 90101 ∧
      paramKinds ((90101 : Int).tmod 100) = some [.read, .read, .write] ∧
      ¬ legalModeDigit (digit 90101 (2 + 2)) ∧ ∀ j < 2, legalModeDigit (digit 90101 (j + 2)) := by decide

theorem witness_LowestIllegalModeFaults_first :
    fetches (vm [303]) 303 ∧ paramKinds ((303 : Int).tmod 100) = some [.write] ∧ ¬ legalModeDigit (digit 303 (0 + 2)) := by
  decide

theorem witness_LowestIllegalModeFaults_excess :
    active (vm [100104] .fault .reject) ∧ fetches (vm [100104] .fault .reject) 100104 ∧ (0 : Int) ≤ 100104 ∧
      paramKinds ((100104 : Int).tmod 100) = some [.read] ∧ (vm [100104] .fault .reject).cfg.excessDigits = .reject ∧
      (∀ k (h : k < [OperandKind.read].length), legalModeDigit (digit 100104 (k + 2)) ∧
        ([OperandKind.read][k] = .write → digit 100104 (k + 2) ≠ 1)) ∧
      [OperandKind.read].length ≤ 3 ∧ digit 100104 (3 + 2) ≠ 0 ∧
      ∀ k < 3, [OperandKind.read].length ≤ k → digit 100104 (k + 2) = 0 := by decide

theorem witness_ImmediateWriteFaults :
    (active (vm [12208]) ∧ fetches (vm [12208]) 12208 ∧ (12208 : Int).tmod 100 ∈ [1, 2, 7, 8] ∧ digit 12208 4 = 1 ∧
      legalModeDigit (digit 12208 2) ∧ legalModeDigit (digit 12208 3)) ∧
    (active (vm [103]) ∧ fetches (vm [103]) 103 ∧ (103 : Int).tmod 100 = 3 ∧ digit 103 2 = 1) := by decide

theorem witness_FetchOutOfBoundsFaults :
    active ((vm [99]).setPc (-1)) ∧ ((vm [99]).setPc (-1)).pc < 0 ∧ active ((vm [99]).setPc 1) ∧
      ((vm [99]).cfg.cap : Int) ≤ ((vm [99]).setPc 1).pc ∧ active (vm [99]) ∧ 0 ≤ (vm [99]).pc ∧
      (vm [99]).pc < ((vm [99]).cfg.cap : Int) := by decide

theorem witness_StepRunsDecodedInstruction :
    active (vm [4, 9]).suspend ∧ (vm [4, 9]).suspend.inBounds (vm [4, 9]).suspend.pc = true ∧
      decode (vm [4, 9]).cfg (vm [4, 9]).wordsAtPc = .ok (.output ⟨.position, 9⟩, [0, 0]) ∧
      decode (vm [98]).cfg (vm [98]).wordsAtPc = .error (.illegal { kind := .invalidOpcode }) := by decide

/-- Operands `#MAX`, `#1` and the destination `[4]` of a five-word memory, the last word. -/
theorem witness_AddStoresFittedSum :
    (resolves3 (vm [0, 0, 0, 0, 0] .wrap) ⟨.immediate, MAX⟩ ⟨.immediate, 1⟩ ⟨.position, 4⟩ ∧
      fittedResult (vm [0, 0, 0, 0, 0] .wrap).cfg (MAX + 1) MIN) ∧
    (resolves3 (vm [0, 0, 0, 0, 0]) ⟨.immediate, MAX⟩ ⟨.position, 0⟩ ⟨.position, 4⟩ ∧
      fittedResult (vm [0, 0, 0, 0, 0]).cfg (MAX + 0) MAX) ∧
    (resolves3 (vm [0, 0, 0, 0, 0]) ⟨.immediate, MAX⟩ ⟨.immediate, 1⟩ ⟨.position, 4⟩ ∧
      overflows (vm [0, 0, 0, 0, 0]).cfg (MAX + 1)) := by decide

theorem witness_MulStoresFittedProduct :
    (resolves3 (vm [0, 0, 0, 0, 0] .wrap) ⟨.immediate, MIN⟩ ⟨.immediate, -1⟩ ⟨.relative, 4⟩ ∧
      fittedResult (vm [0, 0, 0, 0, 0] .wrap).cfg (MIN * -1) MIN) ∧
    (resolves3 (vm [0, 0, 0, 0, 0]) ⟨.immediate, MIN⟩ ⟨.immediate, 1⟩ ⟨.relative, 4⟩ ∧
      fittedResult (vm [0, 0, 0, 0, 0]).cfg (MIN * 1) MIN) ∧
    (resolves3 (vm [0, 0, 0, 0, 0]) ⟨.immediate, MIN⟩ ⟨.immediate, -1⟩ ⟨.relative, 4⟩ ∧
      overflows (vm [0, 0, 0, 0, 0]).cfg (MIN * -1)) := by decide

theorem witness_LessThan_and_Equals :
    resolves3 ((vm [0, 0, 0, 0, 7]).setRb 4) ⟨.relative, 0⟩ ⟨.position, 4⟩ ⟨.relative, -4⟩ ∧
      ((vm [0, 0, 0, 0, 7]).setRb 4).operandValue ⟨.relative, 0⟩ =
        ((vm [0, 0, 0, 0, 7]).setRb 4).operandValue ⟨.position, 4⟩ ∧
      resolves3 (vm [0, 0, 0, 0, 7]) ⟨.immediate, -1⟩ ⟨.immediate, 0⟩ ⟨.position, 4⟩ ∧ (-1 : Int) < 0 := by decide

theorem witness_InputStoresFrontOrWaits :
    ((vm [0, 0]).pushInput 5).paramsInBounds 1 ∧ ((vm [0, 0]).pushInput 5).writable ⟨.position, 1⟩ = true ∧
      ((vm [0, 0]).pushInput 5).inputs = [5] ∧ (vm [0, 0]).inputs = [] ∧
      (vm [0, 0]).inBounds ((vm [0, 0]).effectiveAddress ⟨.position, 2⟩) = false := by decide

theorem witness_OutputAppends :
    (vm [0, 7]).paramsInBounds 1 ∧ (vm [0, 7]).readable ⟨.position, 1⟩ = true ∧ (vm [0, 7]).readable ⟨.immediate, MIN⟩ = true := by
  decide

theorem witness_JumpsTestForZero :
    (vm [0, 0, -1]).paramsInBounds 2 ∧ (vm [0, 0, -1]).readable ⟨.position, 2⟩ = true ∧
      (vm [0, 0, -1]).operandValue ⟨.position, 2⟩ ≠ 0 ∧ (vm [0, 0, -1]).operandValue ⟨.position, 0⟩ = 0 := by decide

theorem witness_JumpTargetIsCheckedAtNextFetch :
    active (vm [1105, 1, 3]) ∧ (vm [1105, 1, 3]).inBounds (vm [1105, 1, 3]).pc = true ∧
      (vm [1105, 1, 3]).fetchDecode = .ok (.jumpIfTrue ⟨.immediate, 1⟩ ⟨.immediate, 3⟩) ∧
      (vm [1105, 1, 3]).operandValue ⟨.immediate, 1⟩ ≠ 0 ∧ (vm [1105, 1, 3]).paramsInBounds 2 ∧
      (vm [1105, 1, 3]).readable ⟨.immediate, 3⟩ = true ∧
      (vm [1105, 1, 3]).inBounds ((vm [1105, 1, 3]).operandValue ⟨.immediate, 3⟩) = false ∧
      (vm [1106, 0, -1]).fetchDecode = .ok (.jumpIfFalse ⟨.immediate, 0⟩ ⟨.immediate, -1⟩) ∧
      (vm [1106, 0, -1]).inBounds ((vm [1106, 0, -1]).operandValue ⟨.immediate, -1⟩) = false := by decide

theorem witness_AdjustRelativeBaseAddsToRb :
    ((vm [9, 1]).setRb MAX).paramsInBounds 1 ∧ ((vm [9, 1]).setRb MAX).readable ⟨.immediate, 0⟩ = true ∧
      fittedResult (vm [9, 1]).cfg (MAX + 0) MAX ∧ fittedResult (vm [9, 1] .wrap).cfg (MAX + 1) MIN ∧
      overflows (vm [9, 1]).cfg (MAX + 1) := by decide

theorem witness_FitAnswersACongruentWord :
    (cfgOf 4 .wrap .ignore).valid ∧ fit (cfgOf 4 .wrap .ignore) (MAX + 1) = .ok MIN ∧ (cfgOf 4 .fault .ignore).valid ∧
      fit (cfgOf 4 .fault .ignore) MAX = .ok MAX := by decide

theorem witness_MemoryReadsTheLatestWrite :
    (∀ a ∈ [(0 : Int), 1], 0 ≤ a ∧ a < ((vm [0, 0]).cfg.cap : Int)) ∧
      (∀ a ∈ [(-1 : Int), 2], a < 0 ∨ ((vm [0, 0]).cfg.cap : Int) ≤ a) ∧
      destination (.output ⟨.position, 1⟩) = none ∧ destination (.input ⟨.position, 1⟩) = some ⟨.position, 1⟩ := by decide

/-- One completed step of each storing instruction; `add` and `mul` store onto the instruction's own words (`pc` and its last
word), `less-than` at the next `pc`, which is the last address. -/
theorem witness_StoreIsSeenByTheNextFetch :
    ∀ p ∈ [(vm [1, 0, 0, 0], Instr.add ⟨.position, 0⟩ ⟨.position, 0⟩ ⟨.position, 0⟩),
        (vm [1102, 6, 7, 3], .mul ⟨.immediate, 6⟩ ⟨.immediate, 7⟩ ⟨.position, 3⟩),
        ((vm [3, 1]).pushInput 99, .input ⟨.position, 1⟩),
        (vm [1107, 1, 2, 4, 0], .lessThan ⟨.immediate, 1⟩ ⟨.immediate, 2⟩ ⟨.position, 4⟩),
        (vm [21108, 1, 2, 0], .equals ⟨.immediate, 1⟩ ⟨.immediate, 2⟩ ⟨.relative, 0⟩)],
      active p.1 ∧ p.1.fetchDecode = .ok p.2 ∧ (destination p.2).isSome = true ∧
        (step p.1 matches .next _) = true ∧ (after p.1).st = .ready := by decide

theorem witness_StoreIsSeenByTheNextFetch_host : ∃ t, (vm [0, 0]).hostWrite 1 99 = .ok t := ⟨_, rfl⟩

theorem witness_OutOfBoundsIsTheFirstDereference :
    (active ((vm [0]).setPc 1) ∧ ((vm [0]).setPc 1).inBounds ((vm [0]).setPc 1).pc = false) ∧
      firstOutOfBounds (vm [1, 0, 0]) (.add ⟨.position, 0⟩ ⟨.position, 0⟩ ⟨.position, 3⟩) = some (2, 3) ∧
      firstOutOfBounds (vm [4, 2]) (.output ⟨.position, 2⟩) = some (0, 2) ∧
      firstOutOfBounds (vm [3, -1]) (.input ⟨.position, -1⟩) = some (0, -1) ∧
      firstOutOfBounds (vm [4, 1]) (.output ⟨.position, 1⟩) = none ∧
      (Instr.add ⟨.position, 0⟩ ⟨.position, 0⟩ ⟨.position, 3⟩).wellFormed (vm [1, 0, 0]).cfg.wordBits := by decide

theorem witness_OverflowOnlyFromArithmetic :
    (vm [1101, MAX, 1, 4, 0]).flt = none ∧
      ∃ t r, exec (.add ⟨.immediate, MAX⟩ ⟨.immediate, 1⟩ ⟨.position, 4⟩) (vm [1101, MAX, 1, 4, 0]) = .next t ∧
        t.flt = some r ∧ r.kind = .overflow :=
  ⟨rfl, _, _, rfl, rfl, rfl⟩

theorem witness_FaultsArePrecise :
    active (vm [50]) ∧ step (vm [50]) = .next (after (vm [50])) ∧ (after (vm [50])).st = .faulted :=
  ⟨by decide, rfl, by decide⟩

theorem witness_FaultsArePrecise_fetch :
    active ((vm [99]).setPc 1) ∧ step ((vm [99]).setPc 1) = .next (after ((vm [99]).setPc 1)) ∧
      (after ((vm [99]).setPc 1)).st = .faulted :=
  ⟨by decide, rfl, by decide⟩

theorem witness_RegistersAreWrittenOnlyByTheirOpcodes :
    (∃ t, exec (.adjustRelativeBase ⟨.immediate, 5⟩) (vm [109, 5]) = .next t ∧ t.rb = 5) ∧
      ∃ t, exec (.jumpIfTrue ⟨.immediate, 1⟩ ⟨.immediate, 0⟩) (vm [1105, 1, 0]) = .next t ∧ t.pc = 0 ∧ t.st = .ready :=
  ⟨⟨_, rfl, rfl⟩, _, rfl, rfl, rfl⟩

theorem witness_QueuesAreStrictFifos :
    (∃ t, exec (.input ⟨.position, 1⟩) ((vm [3, 1]).pushInput 6) = .next t ∧ t.inputs = []) ∧
      (∃ t, exec (.output ⟨.immediate, 6⟩) (vm [104, 6]) = .next t ∧ t.outputs = [6]) ∧
      (vm [104, 6]).paramsInBounds 1 ∧ (vm [104, 6]).readable ⟨.immediate, 6⟩ = true :=
  ⟨⟨_, rfl, rfl⟩, ⟨_, rfl, rfl⟩, by decide, by decide⟩

theorem witness_OnlyStarvedInputSuspends :
    (vm [3, 1]).st = .ready ∧ (∃ t, exec (.input ⟨.position, 1⟩) (vm [3, 1]) = .next t ∧ t.st = .waiting) ∧
      ∃ t, exec (.output ⟨.immediate, 6⟩) (vm [104, 6]) = .next t ∧ t.st = .ready :=
  ⟨rfl, ⟨_, rfl, rfl⟩, _, rfl, rfl⟩

theorem witness_SuspensionReturnsByRetry :
    active (vm [3, 1]) ∧ step (vm [3, 1]) = .next (after (vm [3, 1])) ∧ (after (vm [3, 1])).st = .waiting :=
  ⟨by decide, rfl, by decide⟩

theorem witness_TerminalStatesNeverChange : (after (vm [99])).st = .halted ∧ (after (vm [50])).st = .faulted := by decide

theorem witness_RunEndsWaitingHaltedOrFaulted :
    (∃ t, run 1 (vm [3, 1]) = some t ∧ t.st = .waiting) ∧ (∃ t, run 2 (vm [104, 7, 99]) = some t ∧ t.st = .halted) ∧
      (∃ t, run 2 (vm [104, 7]) = some t ∧ t.st = .faulted) ∧ active (vm [3, 1]) ∧ active (vm [104, 7]) :=
  ⟨⟨_, rfl, by decide⟩, ⟨_, rfl, by decide⟩, ⟨_, rfl, by decide⟩, by decide, by decide⟩

theorem witness_RunIsIteratedStep : active (vm [104, 7, 99]) ∧ run 1 (vm [104, 7, 99]) = none ∧
    ∃ t, run 2 (vm [104, 7, 99]) = some t := ⟨by decide, rfl, _, rfl⟩

/-- A state, and another that agrees with it on what a step reads: `Waiting`, with more inputs and an output. -/
theorem witness_StepIsDeterminedByWhatItReads :
    ∃ s1 s2 : State, active s1 ∧ active s2 ∧ s1.cfg = s2.cfg ∧ s1.mem = s2.mem ∧ s1.pc = s2.pc ∧ s1.rb = s2.rb ∧
      s1.inputs.head? = s2.inputs.head? ∧ s1.inputs ≠ s2.inputs ∧ s1.outputs ≠ s2.outputs ∧ s1.st ≠ s2.st :=
  ⟨(vm [3, 1]).pushInput 5, ((((vm [3, 1]).pushInput 5).pushInput 6).pushOutput 7).suspend, by decide⟩

theorem witness_StepKeepsInvariant : State.reset.Inv ∧ step State.reset = .next (after State.reset) :=
  ⟨by decide, rfl⟩

theorem witness_CreateEstablishesInvariant :
    64 ≤ (cfgOf 3 .fault .ignore).wordBits ∧ (∀ v ∈ [MIN, 0, MAX], isWord 64 v) ∧
      ∃ s, create (cfgOf 3 .fault .ignore) (.words [MIN, 0, MAX]) [MAX] = .ok s :=
  ⟨by decide, by decide, _, rfl⟩

theorem witness_HostOperationsKeepInvariant :
    ((vm [1, 2]).pushOutput 3).Inv ∧ isWord (vm [1, 2]).cfg.wordBits MAX ∧
      (∃ x t, ((vm [1, 2]).pushOutput 3).popOutput = some (x, t)) ∧ ∃ t, ((vm [1, 2]).pushOutput 3).hostWrite 1 MAX = .ok t :=
  ⟨by decide, by decide, ⟨_, _, rfl⟩, _, rfl⟩

theorem witness_CreateErrorsInOrder :
    parseProgram 64 "1,,2".toList = .error .malformedProgram ∧ parseProgram 64 "1,2".toList = .ok [1, 2] ∧
      [1, 2].length ≤ 2 ∧ 2 < [1, 2, 3].length := by decide

theorem witness_HostOperationsDoOnlyTheirPart :
    ((vm [0, 0]).pushOutput 3).outputs = [3] ∧ (vm [0, 0]).outputs = [] ∧
      (∀ a ∈ [(0 : Int), 1], 0 ≤ a ∧ a < ((vm [0, 0]).cfg.cap : Int)) ∧
      (∀ a ∈ [(-1 : Int), 2], a < 0 ∨ ((vm [0, 0]).cfg.cap : Int) ≤ a) ∧ (vm [0, 0]).st ≠ .faulted ∧
      (after (vm [50])).st = .faulted := by decide

end Sys2Proof.Tests
end

section
/-! SUPPORT. The invariant, operation by operation: each named operation of the state keeps it, and so does every entry of a
fault that a phase raises. A completed instruction is a chain of these operations (`effect_ok_cases`), so its proof is the
chain of these lemmas. -/

namespace Sys2Proof.Machine

variable {s t : State}

/-! ## Before a fault there is no record -/

theorem State.Inv.flt_eq_none (h : s.Inv) (hst : s.st ≠ .faulted) : s.flt = none := by
  obtain ⟨-, -, -, -, hflt, -⟩ := h
  exact hflt.mpr hst

/-! ## The operations on memory, registers and queues -/

theorem State.Inv.store (h : s.Inv) {a v : Int} (ha : s.inBounds a = true) (hv : isWord s.cfg.wordBits v) :
    (s.store a v).Inv := by
  obtain ⟨hcfg, hwf, hmem, hwords, hflt⟩ := h
  exact ⟨hcfg, Memory.wf_set _ _ _ hwf, s.memInRange_store hmem a v ha hv, hwords, hflt⟩

/-- A fault record names the machine's `pc`, so only a machine without one may move `pc`. -/
theorem State.Inv.setPc (h : s.Inv) (hst : s.st ≠ .faulted) {v : Int} (hv : isWord s.cfg.wordBits v) :
    (s.setPc v).Inv := by
  have hnone := h.flt_eq_none hst
  obtain ⟨hcfg, hwf, hmem, ⟨-, hrest⟩, -⟩ := h
  exact ⟨hcfg, hwf, hmem, ⟨hv, hrest⟩, State.faultRecordOk_of_none _ hnone hst⟩

/-- R8 leaves room for it: past an instruction that begins in memory `pc` is still a Word (R89). -/
theorem State.Inv.advance (h : s.Inv) (hst : s.st ≠ .faulted) (hpc : s.inBounds s.pc = true) {k : Int}
    (hk : 0 ≤ k ∧ k ≤ 4) : (s.advance k).Inv := by
  have ⟨hcfg, _⟩ := h
  have hb := (s.inBounds_iff s.pc).mp hpc
  exact h.setPc hst (isWord_near_cap s.cfg hcfg _ (by omega))

theorem State.Inv.setRb (h : s.Inv) {v : Int} (hv : isWord s.cfg.wordBits v) : (s.setRb v).Inv := by
  obtain ⟨hcfg, hwf, hmem, ⟨hpc, -, hqueues⟩, hflt⟩ := h
  exact ⟨hcfg, hwf, hmem, ⟨hpc, hv, hqueues⟩, hflt⟩

theorem State.Inv.dropInput (h : s.Inv) : s.dropInput.Inv := by
  obtain ⟨hcfg, hwf, hmem, ⟨hpc, hrb, hin, hout⟩, hflt⟩ := h
  exact ⟨hcfg, hwf, hmem, ⟨hpc, hrb, fun v hv => hin v (List.mem_of_mem_tail hv), hout⟩, hflt⟩

theorem State.Inv.pushOutput (h : s.Inv) {v : Int} (hv : isWord s.cfg.wordBits v) : (s.pushOutput v).Inv := by
  obtain ⟨hcfg, hwf, hmem, ⟨hpc, hrb, hin, hout⟩, hflt⟩ := h
  refine ⟨hcfg, hwf, hmem, ⟨hpc, hrb, hin, fun x hx => ?_⟩, hflt⟩
  rcases List.mem_append.mp hx with hx | hx
  · exact hout x hx
  · exact List.mem_singleton.mp hx ▸ hv

/-! ## The execution state -/

theorem State.Inv.resume (h : s.Inv) (hst : s.st ≠ .faulted) : s.resume.Inv := by
  have hnone := h.flt_eq_none hst
  obtain ⟨hcfg, hwf, hmem, hwords, -⟩ := h
  exact ⟨hcfg, hwf, hmem, hwords, State.faultRecordOk_of_none _ hnone (by simp)⟩

theorem State.Inv.suspend (h : s.Inv) (hst : s.st ≠ .faulted) : s.suspend.Inv := by
  have hnone := h.flt_eq_none hst
  obtain ⟨hcfg, hwf, hmem, hwords, -⟩ := h
  exact ⟨hcfg, hwf, hmem, hwords, State.faultRecordOk_of_none _ hnone (by simp)⟩

theorem State.Inv.stop (h : s.Inv) (hst : s.st ≠ .faulted) : s.stop.Inv := by
  have hnone := h.flt_eq_none hst
  obtain ⟨hcfg, hwf, hmem, hwords, -⟩ := h
  exact ⟨hcfg, hwf, hmem, hwords, State.faultRecordOk_of_none _ hnone (by simp)⟩

/-! ## Fault entry (R157) -/

/-- The record that the entry of the fault `e` writes. -/
def State.faultRecord (s : State) (e : Raise) : FaultRecord :=
  { kind := e.kind, pc := s.pc, word := s.wordAtPc, param := e.param, mode := e.mode, addr := e.addr }

theorem State.faultEntry_flt_eq (s : State) (e : Raise) : (s.faultEntry e).flt = some (s.faultRecord e) := rfl

theorem State.Inv.faultEntry (h : s.Inv) {e : Raise} (he : (s.faultRecord e).fieldsOfKind = true) :
    (s.faultEntry e).Inv := by
  obtain ⟨hcfg, hwf, hmem, hwords, -⟩ := h
  refine ⟨hcfg, hwf, hmem, hwords, by simp, fun r hr => ?_⟩
  rw [State.faultEntry_flt_eq] at hr
  obtain rfl : r = s.faultRecord e := List.mem_singleton.mp hr
  exact ⟨he, rfl⟩

/-- A raise of phase F or D has the fields of its kind; the fetch's own fault is the one with no word (R30, R150). -/
theorem State.fieldsOfKind_of_fetchDecode_error {e : Raise} (h : s.fetchDecode = .error e) :
    (s.faultRecord e).fieldsOfKind = true := by
  rw [State.fetchDecode_eq] at h
  split at h
  · next hpc =>
    obtain ⟨-, rfl | ⟨k, d, rfl⟩ | ⟨k, rfl⟩⟩ := decodeWord_error _ _ _ _ _ _ h <;>
      simp [State.faultRecord, FaultRecord.fieldsOfKind, s.wordAtPc_of_inBounds hpc]
  · next hpc =>
    cases h
    simp [State.faultRecord, FaultRecord.fieldsOfKind, raiseOutOfBounds, s.wordAtPc_of_outOfBounds (by simpa using hpc)]

/-- A raise of phase O or E has the fields of its kind (R30, R150). -/
theorem State.fieldsOfKind_of_effect_error {i : Instr} {e : Raise} (hpc : s.inBounds s.pc = true)
    (h : s.effect i = .error e) : (s.faultRecord e).fieldsOfKind = true := by
  rcases effect_error s i e h with ⟨k, a, rfl⟩ | ⟨rfl, -⟩ | ⟨⟨k, rfl⟩, -⟩ <;>
    simp [State.faultRecord, FaultRecord.fieldsOfKind, raiseOutOfBounds, s.wordAtPc_of_inBounds hpc]

/-! ## Construction (R34) -/

theorem State.Inv.initial {cfg : Config} {ws ins : List Int} (hcfg : cfg.valid) (hl : ws.length ≤ cfg.cap)
    (hws : ∀ v ∈ ws, isWord cfg.wordBits v) (hins : ∀ v ∈ ins, isWord cfg.wordBits v) :
    (State.initial cfg ws ins).Inv := by
  have hzero : isWord cfg.wordBits 0 := isWord_small cfg hcfg 0 (by norm_num)
  exact ⟨hcfg, Memory.wf_load ws 0, State.memInRange_initial cfg ws ins hl hws,
    ⟨hzero, hzero, hins, fun v hv => absurd hv List.not_mem_nil⟩, State.faultRecordOk_of_none _ rfl nofun⟩

/-! ## Instructions -/

theorem State.inBounds_pc_of_fetchDecode {i : Instr} (h : s.fetchDecode = .ok i) : s.inBounds s.pc = true := by
  rw [State.fetchDecode_eq] at h
  by_contra hpc
  simp [hpc] at h

theorem Instr.isWord_param {W : Nat} {i : Instr} (h : i.wellFormed W) {k : OperandKind} {o : Operand}
    (ho : (k, o) ∈ i.operands) : isWord W o.param :=
  (h (k, o) ho).1

theorem State.Inv.takeInput (h : s.Inv) (hst : s.st ≠ .faulted) (hpc : s.inBounds s.pc = true) {a : Int}
    (ha : s.inBounds a = true) : (s.takeInput a).Inv := by
  rcases s.takeInput_cases a with ⟨-, heq⟩ | ⟨v, vs, hin, heq⟩
  · rw [heq]
    exact h.suspend hst
  · have ⟨_, _, _, ⟨_, _, hwords, _⟩, _⟩ := h
    have hv : isWord s.cfg.wordBits v := hwords v (by simp [hin])
    rw [heq]
    exact (h.dropInput.store ha hv).advance hst hpc (by norm_num)

/-- An instruction that completes keeps the invariant. -/
theorem State.Inv.effect (h : s.Inv) (hst : s.st ≠ .faulted) (hpc : s.inBounds s.pc = true) {i : Instr}
    (hi : i.wellFormed s.cfg.wordBits) (ht : s.effect i = .ok t) : t.Inv := by
  have ⟨hcfg, _, hmem, _⟩ := h
  have value {k : OperandKind} {o : Operand} (ho : (k, o) ∈ i.operands) : isWord s.cfg.wordBits (s.operandValue o) :=
    s.isWord_operandValue hcfg hmem o (Instr.isWord_param hi ho)
  have hW : 1 ≤ s.cfg.wordBits := by have := hcfg.1; omega
  rcases effect_ok_cases s t i ht with ⟨d, v, -, -, hd, rfl, hv⟩ | ⟨d, -, -, hd, rfl⟩ | ⟨a, rfl, rfl⟩ |
    ⟨a, b, hjump, rfl | rfl⟩ | ⟨a, r, -, hr, rfl⟩ | ⟨-, rfl⟩
  · have hword : isWord s.cfg.wordBits v := by
      rcases hv with ⟨x, hx⟩ | rfl | rfl
      · exact isWord_of_fit s.cfg x v hW hx
      · exact isWord_small s.cfg hcfg 0 (by norm_num)
      · exact isWord_small s.cfg hcfg 1 (by norm_num)
    exact (h.store ((s.writable_iff d).mp hd).2 hword).advance hst hpc (by norm_num)
  · exact h.takeInput hst hpc ((s.writable_iff d).mp hd).2
  · exact (h.pushOutput (value (k := .read) (by simp [Instr.operands]))).advance hst hpc (by norm_num)
  · refine h.setPc hst (value (k := .read) (o := b) ?_)
    rcases hjump with rfl | rfl <;> simp [Instr.operands]
  · exact h.advance hst hpc (by norm_num)
  · exact (h.setRb (isWord_of_fit s.cfg _ r hW hr)).advance hst hpc (by norm_num)
  · exact h.stop hst

/-- `Step()` keeps the invariant, whichever phase it ends in. -/
theorem State.Inv.stepInstr (h : s.Inv) (hst : s.st ≠ .faulted) (ht : stepInstr s = .next t) : t.Inv := by
  rcases stepInstr_cases s t ht with ⟨e, he, rfl⟩ | ⟨i, hi, hend⟩
  · exact h.faultEntry (State.fieldsOfKind_of_fetchDecode_error he)
  · have hpc := State.inBounds_pc_of_fetchDecode hi
    rcases hend with hok | ⟨e, he, rfl⟩
    · have ⟨hcfg, _, hmem, _⟩ := h
      exact h.effect hst hpc (s.wellFormed_of_fetchDecode i hi (s.isWord_get hcfg hmem)) hok
    · exact h.faultEntry (State.fieldsOfKind_of_effect_error hpc he)

/-- Settles O39: a step is the identity in a terminal state, and else the return from a suspension and then `Step()`, each of
which keeps the invariant. -/
theorem stepKeepsInvariant : Obligations.StepKeepsInvariant := by
  intro s t h ht
  rcases step_cases s t ht with ⟨-, rfl⟩ | ⟨hactive, ht⟩
  · exact h
  · have hst : s.st ≠ .faulted := by
      intro hf
      simp [hf, ExecState.terminal] at hactive
    exact (h.resume hst).stepInstr (by simp) ht

/-- Settles O40: the reset state is that of `create` with no program and no inputs (R34). -/
theorem resetMeetsInvariant : Obligations.ResetMeetsInvariant :=
  State.Inv.initial (cfg := .standard Config.resetCap) (ws := []) (ins := []) (by decide) (Nat.zero_le _) nofun nofun

/-- Settles O43: a successful `create` answers `State.initial` of the program's Words, whose memory is their load at 0. -/
theorem createBuildsTheResetState : Obligations.CreateBuildsTheResetState := by
  intro cfg p ins s h
  obtain ⟨ws, hws, -, -, rfl⟩ := (create_ok_iff cfg p ins s).mp h
  have hget (k : Nat) : (State.initial cfg ws ins).mem.get k = ws.getD k 0 := by
    simpa [State.initial] using Memory.get_load ws 0 k
  refine ⟨ws, hws, fun k hk => ?_, fun k hk => ?_, rfl, rfl, rfl, rfl, rfl, rfl, rfl⟩
  · rw [hget, List.getD_eq_getElem _ _ hk]
  · rw [hget, List.getD_eq_default _ _ hk]

end Sys2Proof.Machine
end

section
/-! SUPPORT. Which registers an instruction writes (R21, R25, R89). -/

namespace Sys2Proof.Machine

open Sys2Proof.Claims (fittedResult)

/-- What `fit` answers is the fitted result as the statements write it (R102). -/
theorem fittedResult_of_fit {cfg : Config} {v r : Int} (h : fit cfg v = .ok r) : fittedResult cfg v r := by
  by_cases hv : isWord cfg.wordBits v
  · rw [fit_of_isWord cfg v hv] at h
    cases h
    exact .inl ⟨hv, rfl⟩
  · rw [fit_of_not_isWord cfg v hv] at h
    cases hm : cfg.overflowMode with
    | fault => simp [hm] at h
    | wrap =>
      rw [hm] at h
      cases h
      exact .inr ⟨hv, hm, by simp [wrapWord]⟩

/-- `rb` after an instruction that completes: only opcode 9 writes it, with the fitted sum (R140). -/
theorem effect_rb {s t : State} {i : Instr} (h : s.effect i = .ok t) :
    t.rb = s.rb ∨ ∃ a, i = .adjustRelativeBase a ∧ fittedResult s.cfg (s.rb + s.operandValue a) t.rb := by
  rcases effect_ok_cases s t i h with ⟨d, v, -, -, -, rfl, -⟩ | ⟨d, -, -, -, rfl⟩ | ⟨a, -, rfl⟩ | ⟨a, b, -, rfl | rfl⟩ |
    ⟨a, r, rfl, hr, rfl⟩ | ⟨-, rfl⟩
  · exact .inl rfl
  · rcases s.takeInput_cases (s.effectiveAddress d) with ⟨-, heq⟩ | ⟨v, vs, -, heq⟩ <;> rw [heq] <;> exact .inl rfl
  · exact .inl rfl
  · exact .inl rfl
  · exact .inl rfl
  · exact .inr ⟨a, rfl, fittedResult_of_fit hr⟩
  · exact .inl rfl

/-- `pc` after an instruction that completes: the advance by its length, a jump's target, or, where it suspends or halts, the
old `pc` (R89). -/
theorem effect_pc {s t : State} {i : Instr} (h : s.effect i = .ok t) :
    t.pc = s.pc + 1 + (i.nparams : Int) ∨
      (∃ a b, (i = .jumpIfTrue a b ∨ i = .jumpIfFalse a b) ∧ t.pc = s.operandValue b) ∨
      (t.pc = s.pc ∧ t.st ≠ .ready) := by
  rcases effect_ok_cases s t i h with ⟨d, v, -, hn, -, rfl, -⟩ | ⟨d, rfl, -, -, rfl⟩ | ⟨a, rfl, rfl⟩ |
    ⟨a, b, hjump, rfl | rfl⟩ | ⟨a, r, rfl, -, rfl⟩ | ⟨rfl, rfl⟩
  · exact .inl (by simp [hn]; omega)
  · rcases s.takeInput_cases (s.effectiveAddress d) with ⟨-, heq⟩ | ⟨v, vs, -, heq⟩
    · exact .inr (.inr (by simp [heq]))
    · exact .inl (by simp [heq, Instr.nparams, Instr.operands]; omega)
  · exact .inl (by simp [Instr.nparams, Instr.operands]; omega)
  · exact .inr (.inl ⟨a, b, hjump, rfl⟩)
  · have hn : i.nparams = 2 := by rcases hjump with rfl | rfl <;> rfl
    exact .inl (by simp [hn]; omega)
  · exact .inl (by simp [Instr.nparams, Instr.operands]; omega)
  · exact .inr (.inr (by simp))

/-- Settles O29: an instruction ends in a fault entry, which writes no register, or completes (`effect_cfg_flt`, `effect_rb`,
`effect_pc`). -/
theorem registersAreWrittenOnlyByTheirOpcodes : Obligations.RegistersAreWrittenOnlyByTheirOpcodes := by
  intro i s t h
  rw [exec_eq_complete, State.complete_eq_next] at h
  rcases h with h | ⟨e, -, rfl⟩
  · refine ⟨(effect_cfg_flt s t i h).1, effect_rb h, ?_⟩
    rcases effect_pc h with hpc | ⟨a, b, hjump, hpc⟩ | ⟨hpc, hst⟩
    · exact ⟨.inr (.inl hpc), fun hsame => by omega⟩
    · exact ⟨.inr (.inr ⟨a, b, hjump, hpc⟩), fun _ _ => ⟨a, b, hjump⟩⟩
    · exact ⟨.inl hpc, fun _ hready => absurd hready hst⟩
  · exact ⟨rfl, .inl rfl, .inl rfl, fun _ hready => by simp at hready⟩

end Sys2Proof.Machine
end

section
/-! SUPPORT. Which memory an instruction and the host write, and that the next fetch sees it (R43, R44, R53, R54). -/

namespace Sys2Proof.Machine

open Sys2Proof.Claims (destination storedWord fetchedAs)

variable {s t : State} {i : Instr} {d : Operand} {a v : Int}

/-! ## Memory access (R43, R44) -/

theorem State.inBounds_eq_false_iff : s.inBounds a = false ↔ a < 0 ∨ (s.cfg.cap : Int) ≤ a := by
  rw [Bool.eq_false_iff, ne_eq, State.inBounds_iff]
  omega

theorem State.memRead_of_inBounds (p : Option Nat) (h : s.inBounds a = true) :
    s.memRead a p = .ok (s.mem.get a.toNat) :=
  if_pos h

theorem State.memRead_of_outOfBounds (p : Option Nat) (h : s.inBounds a = false) :
    s.memRead a p = .error (raiseOutOfBounds a p) := by
  simp [State.memRead, h]

theorem State.memWrite_of_inBounds (v : Int) (p : Option Nat) (h : s.inBounds a = true) :
    s.memWrite a v p = .ok (s.store a v) :=
  if_pos h

theorem State.memWrite_of_outOfBounds (v : Int) (p : Option Nat) (h : s.inBounds a = false) :
    s.memWrite a v p = .error (raiseOutOfBounds a p) := by
  simp [State.memWrite, h]

theorem State.hostWrite_ok_iff : s.hostWrite a v = .ok t ↔ s.inBounds a = true ∧ t = s.store a v := by
  by_cases h : s.inBounds a = true <;> simp [State.hostWrite, h, eq_comm]

/-- Two addresses in bounds that differ are two cells, so a read after a write is `Memory.get_set`. -/
theorem State.memRead_store (v b : Int) (q : Option Nat) (ha : s.inBounds a = true) :
    (s.store a v).memRead b q = if b = a then .ok v else s.memRead b q := by
  cases hb : s.inBounds b with
  | true =>
    rw [State.memRead_of_inBounds q hb, State.memRead_of_inBounds (s := s.store a v) q hb, State.store_mem, Memory.get_set]
    rw [State.inBounds_iff] at ha hb
    have hcell : b.toNat = a.toNat ↔ b = a := by omega
    simp only [hcell]
    split <;> rfl
  | false =>
    have hne : b ≠ a := by
      rintro rfl
      simp [ha] at hb
    rw [if_neg hne, State.memRead_of_outOfBounds q hb, State.memRead_of_outOfBounds (s := s.store a v) q hb]

/-! ## What an instruction that completes does to memory -/

theorem destination_eq_some_iff : destination i = some d ↔ (OperandKind.write, d) ∈ i.operands := by
  cases i <;> simp [destination, Instr.operands, eq_comm]

/-- Without a write operand an instruction has no store among its ends. -/
theorem effect_mem_of_destination_none (hd : destination i = none) (h : s.effect i = .ok t) : t.mem = s.mem := by
  rcases effect_ok_cases s t i h with ⟨d, v, hw, -⟩ | ⟨d, rfl, -⟩ | ⟨a, -, rfl⟩ | ⟨a, b, -, rfl | rfl⟩ | ⟨a, r, -, -, rfl⟩ |
    ⟨-, rfl⟩
  · rw [destination_eq_some_iff.mpr hw] at hd
    cases hd
  · cases hd
  all_goals rfl

/-- With a write operand an instruction suspends, or stores its one Word, computed in the state it started from. -/
theorem effect_store_of_destination (hd : destination i = some d) (h : s.effect i = .ok t) :
    t = s.suspend ∨ ∃ v, storedWord s v i ∧ s.inBounds (s.effectiveAddress d) = true ∧
      t.mem = s.mem.set (s.effectiveAddress d).toNat v := by
  cases i with
  | add a b dest =>
    cases hd
    obtain ⟨⟨-, -, -, hw⟩, r, hr, rfl⟩ := (effect_add_ok_iff s t a b d).mp h
    exact .inr ⟨r, fittedResult_of_fit hr, ((s.writable_iff d).mp hw).2, rfl⟩
  | mul a b dest =>
    cases hd
    obtain ⟨⟨-, -, -, hw⟩, r, hr, rfl⟩ := (effect_mul_ok_iff s t a b d).mp h
    exact .inr ⟨r, fittedResult_of_fit hr, ((s.writable_iff d).mp hw).2, rfl⟩
  | input dest =>
    cases hd
    obtain ⟨⟨-, hw⟩, rfl⟩ := (effect_input_ok_iff s t d).mp h
    rcases s.takeInput_cases (s.effectiveAddress d) with ⟨-, heq⟩ | ⟨v, vs, hin, heq⟩
    · exact .inl heq
    · exact .inr ⟨v, by simp [storedWord, hin], ((s.writable_iff d).mp hw).2, by rw [heq]; rfl⟩
  | lessThan a b dest =>
    cases hd
    obtain ⟨⟨-, -, -, hw⟩, rfl⟩ := (effect_lessThan_ok_iff s t a b d).mp h
    exact .inr ⟨_, rfl, ((s.writable_iff d).mp hw).2, rfl⟩
  | equals a b dest =>
    cases hd
    obtain ⟨⟨-, -, -, hw⟩, rfl⟩ := (effect_equals_ok_iff s t a b d).mp h
    exact .inr ⟨_, rfl, ((s.writable_iff d).mp hw).2, rfl⟩
  | output | jumpIfTrue | jumpIfFalse | adjustRelativeBase | halt => cases hd

/-- Every cell but the destination's is left. -/
theorem effect_mem_get_of_ne (hd : destination i = some d) (h : s.effect i = .ok t) {k : Nat}
    (hk : (k : Int) ≠ s.effectiveAddress d) : t.mem.get k = s.mem.get k := by
  rcases effect_store_of_destination hd h with rfl | ⟨v, -, hea, hmem⟩
  · rfl
  · rw [State.inBounds_iff] at hea
    rw [hmem, Memory.get_set, if_neg (by omega)]

/-- Settles O24: `memRead_store` for the two accesses; an instruction ends in a fault entry, which leaves memory, or completes
(`effect_mem_of_destination_none`, `effect_mem_get_of_ne`). -/
theorem memoryReadsTheLatestWrite : Obligations.MemoryReadsTheLatestWrite := by
  refine ⟨fun s a v p => ⟨fun h0 hcap => ?_, fun hout => ?_⟩, fun i s t h => ?_⟩
  · have ha : s.inBounds a = true := (s.inBounds_iff a).mpr ⟨h0, hcap⟩
    exact ⟨s.store a v, State.memWrite_of_inBounds v p ha, rfl, fun b q => State.memRead_store v b q ha⟩
  · have ha : s.inBounds a = false := State.inBounds_eq_false_iff.mpr hout
    exact ⟨State.memWrite_of_outOfBounds v p ha, State.memRead_of_outOfBounds p ha⟩
  · rw [exec_eq_complete, State.complete_eq_next] at h
    rcases h with h | ⟨e, -, rfl⟩
    · exact ⟨fun hd => effect_mem_of_destination_none hd h, fun d hd k hk => effect_mem_get_of_ne hd h hk⟩
    · exact ⟨fun _ => rfl, fun _ _ _ _ => rfl⟩

/-! ## The next fetch sees a store (R53, R54) -/

theorem fetchedAs_set {cfg : Config} (m : Memory) (h : 0 ≤ a ∧ a < (cfg.cap : Int)) :
    fetchedAs cfg (m.set a.toNat v) a v := by
  rintro u rfl hmem
  have hget : u.mem.get a.toNat = v := by rw [hmem, Memory.get_set, if_pos rfl]
  refine ⟨hget, ?_⟩
  rintro rfl
  rw [State.fetch_eq, if_pos ((u.inBounds_iff u.pc).mpr h), hget]

/-- The return from a suspension changes no operand and no input, so not the Word to be stored either. -/
theorem storedWord_resume : storedWord s.resume v i ↔ storedWord s v i := by
  cases i <;> rfl

/-- A step that is still `Ready` after the instruction it fetched has completed it, from the state after `st <- Ready`. -/
theorem effect_of_step_ready (hs : s.st.terminal = false) (hi : s.fetchDecode = .ok i) (h : step s = .next t)
    (ht : t.st = .ready) : s.resume.effect i = .ok t := by
  rw [step_active s hs, stepInstr_of_ok s.resume i hi, exec_eq_complete, State.complete_eq_next] at h
  rcases h with h | ⟨e, -, rfl⟩
  · exact h
  · cases ht

/-- Of the instructions with a write operand none jumps, so one that completes advances by its own length. -/
theorem effect_pc_of_destination (hd : destination i = some d) (h : s.effect i = .ok t) (ht : t.st = .ready) :
    t.pc = s.pc + 1 + (i.nparams : Int) := by
  rcases effect_pc h with hpc | ⟨a, b, rfl | rfl, -⟩ | ⟨-, hst⟩
  · exact hpc
  · cases hd
  · cases hd
  · exact absurd ht hst

/-- Settles O25: the step is the effect of the fetched instruction (`effect_of_step_ready`), which stores one Word
(`effect_store_of_destination`); a fetch at a written cell gives what was written (`fetchedAs_set`). -/
theorem storeIsSeenByTheNextFetch : Obligations.StoreIsSeenByTheNextFetch := by
  refine ⟨fun s t i d hs hi hd h ht => ?_, fun s t a v h => ?_⟩
  · have heff := effect_of_step_ready ((ExecState.terminal_eq_false s.st).mpr hs) hi h ht
    refine ⟨effect_pc_of_destination (s := s.resume) hd heff ht, ?_⟩
    rcases effect_store_of_destination hd heff with rfl | ⟨v, hv, hea, hmem⟩
    · cases ht
    · refine ⟨v, storedWord_resume.mp hv, ?_⟩
      rw [hmem, (effect_cfg_flt _ _ _ heff).1]
      exact fetchedAs_set _ ((State.inBounds_iff s _).mp hea)
  · obtain ⟨ha, rfl⟩ := State.hostWrite_ok_iff.mp h
    exact fetchedAs_set s.mem ((s.inBounds_iff a).mp ha)

end Sys2Proof.Machine
end

section
/-! SUPPORT. Decode and encode agree (R60 to R62, R70, R72, R74). Everything rests on `decodeWord_ok_iff`: the head word of an
instruction passes the checks (`headWord_decodes`), and under `reject` no other word does (`eq_headWord_of_decodes`). -/

namespace Sys2Proof

variable {cfg : Config} {w : Int} {ps rest ws : List Int} {i : Instr}

/-- When a list of words decodes: the head word passes the checks of phase D, and the words after it are the parameters and
what is left. -/
theorem decode_cons_ok_iff_append :
    decode cfg (w :: ps) = .ok (i, rest) ↔
      (0 ≤ w ∧ opcodeField w = i.opcode ∧ modesDecode w i.operands ∧ checkExcess cfg w i.nparams = .ok ()) ∧
        ps = i.operands.map (fun p => p.2.param) ++ rest := by
  rw [decode_cons_ok_iff, decodeWord_ok_iff]
  constructor
  · rintro ⟨⟨h0, hop, hm, hx, hp⟩, hlen, rfl⟩
    refine ⟨⟨h0, hop, hm, hx⟩, ?_⟩
    rw [hp, take_getD ps _ i.nparams_le hlen, List.take_append_drop]
  · rintro ⟨⟨h0, hop, hm, hx⟩, rfl⟩
    have hlen : (i.operands.map (fun p => p.2.param)).length = i.nparams := List.length_map _
    have hle : i.nparams ≤ (i.operands.map (fun p => p.2.param) ++ rest).length := by
      rw [List.length_append, hlen]; omega
    refine ⟨⟨h0, hop, hm, hx, ?_⟩, hle, (List.drop_left' hlen).symm⟩
    rw [take_getD _ _ i.nparams_le hle, List.take_left' hlen]

/-- Only a write operand in immediate mode keeps an instruction from being spelled: the range of a parameter word is no
condition of the decoder's. -/
theorem decode_encode_append (cfg : Config) (i : Instr) (rest : List Int)
    (h : ∀ p ∈ i.operands, p.1 = .write → p.2.mode ≠ .immediate) : decode cfg (encode i ++ rest) = .ok (i, rest) := by
  rw [encode_eq_cons, List.cons_append, decode_cons_ok_iff_append]
  exact ⟨headWord_decodes cfg i h, rfl⟩

/-- Settles O2: `decode_encode_append`, whose hypothesis is the mode half of well-formedness. -/
theorem decodeOfEncodeIsIdentity : Obligations.DecodeOfEncodeIsIdentity :=
  fun cfg i rest h => decode_encode_append cfg i rest fun p hp => (h p hp).2

theorem eq_encode_append_of_decode (hr : cfg.excessDigits = .reject) (h : decode cfg ws = .ok (i, rest)) :
    ws = encode i ++ rest := by
  cases ws with
  | nil => cases h
  | cons w ps =>
    obtain ⟨⟨h0, hop, hm, hx⟩, rfl⟩ := decode_cons_ok_iff_append.mp h
    have hq : quotient w (pow10 (i.nparams + 2)) = 0 := (checkExcess_ok_iff cfg w i.nparams).mp hx hr
    rw [encode_eq_cons, ← eq_headWord_of_decodes w i h0 hq hop hm, List.cons_append]

/-- Settles O3: under `reject` the head word has no digit above its mode digits, so its opcode and modes determine it. -/
theorem encodeOfDecodeIsIdentityUnderReject : Obligations.EncodeOfDecodeIsIdentityUnderReject :=
  fun _ _ _ _ hr h => eq_encode_append_of_decode hr h

/-- Settles O1: the eleven legal rows are the encodings of their instructions (`decode_encode_append`); the twelfth meets the
write-mode check of parameter 2 before anything that depends on the configuration. -/
theorem workedEncodingsDecode : Obligations.WorkedEncodingsDecode := by
  intro cfg
  have spells (i : Instr) (h : ∀ p ∈ i.operands, p.1 = .write → p.2.mode ≠ .immediate) :
      decode cfg (encode i) = .ok (i, []) := by
    simpa using decode_encode_append cfg i [] h
  exact ⟨spells (.add ⟨.position, 9⟩ ⟨.position, 10⟩ ⟨.position, 3⟩) (by decide),
    spells (.mul ⟨.position, 3⟩ ⟨.position, 11⟩ ⟨.position, 0⟩) (by decide),
    spells (.input ⟨.position, 9⟩) (by decide),
    spells (.equals ⟨.position, 9⟩ ⟨.position, 10⟩ ⟨.position, 9⟩) (by decide),
    spells (.output ⟨.position, 9⟩) (by decide),
    spells (.adjustRelativeBase ⟨.immediate, 1⟩) (by decide),
    spells (.output ⟨.relative, -1⟩) (by decide),
    spells (.add ⟨.position, 100⟩ ⟨.immediate, 1⟩ ⟨.position, 100⟩) (by decide),
    spells (.equals ⟨.position, 100⟩ ⟨.immediate, 16⟩ ⟨.position, 101⟩) (by decide),
    spells (.jumpIfFalse ⟨.position, 101⟩ ⟨.immediate, 0⟩) (by decide),
    spells .halt (by decide),
    fun _ _ _ => rfl⟩

end Sys2Proof
end

section
/-! SUPPORT. The opcode map of R62 as the statements write it, beside the decoder's own: which words are legal, how long they
are, and what the others answer (R63, R66 to R71). The checks of phase D are one function of the word and its parameter kinds
(`checkWord`), which the parameter words do not enter (`decodeWord_map`). -/

namespace Sys2Proof

open Sys2Proof.Machine Sys2Proof.Claims

variable {cfg : Config} {w v : Int} {ks : List OperandKind}

/-! ## The opcode map (R62, R66) -/

theorem paramKinds_opcode (i : Instr) : paramKinds i.opcode = some (i.operands.map Prod.fst) := by
  cases i <;> rfl

theorem legalOpcode_iff (op : Int) : legalOpcode op ↔ (1 ≤ op ∧ op ≤ 9) ∨ op = 99 := by
  simp only [List.mem_cons, List.not_mem_nil, or_false]
  omega

theorem paramKinds_eq_none_iff {op : Int} : paramKinds op = none ↔ ¬ legalOpcode op := by
  rw [legalOpcode_iff]
  unfold paramKinds
  split_ifs
  case neg => simp only [true_iff]; omega
  all_goals simp only [false_iff]; omega

/-- The opcodes outside the map: the `rem` of a negative word is never positive (R67). -/
theorem not_legalOpcode_opcodeField_iff (w : Int) :
    ¬ legalOpcode (opcodeField w) ↔ w < 0 ∨ opcodeField w = 0 ∨ (10 ≤ opcodeField w ∧ opcodeField w ≤ 98) := by
  rw [legalOpcode_iff]
  rcases lt_or_ge w 0 with hw | hw
  · have := opcodeField_neg w hw
    omega
  · obtain ⟨n, rfl⟩ := Int.eq_ofNat_of_zero_le hw
    rw [opcodeField_natCast]
    omega

/-! ## The checks of phase D, without the parameter words (R68 to R70, R85) -/

/-- The mode checks of the parameters from `k` on, in ascending order. -/
def checkModes (w : Int) : Nat → List OperandKind → Except Raise Unit
  | _, [] => .ok ()
  | k, kind :: ks => do
    let _ ← decodeMode w kind k
    checkModes w (k + 1) ks

/-- Every check of a word whose parameters have the kinds `ks`: the modes, then the digits above them. -/
def checkWord (cfg : Config) (w : Int) (ks : List OperandKind) : Except Raise Unit := do
  checkModes w 0 ks
  checkExcess cfg w ks.length

/-- The checks alone decide whether a word with a legal opcode decodes, and which fault it is if it does not. -/
theorem decodeWord_map (p0 p1 p2 : Int) (hw : 0 ≤ w) (hks : paramKinds (opcodeField w) = some ks) :
    (decodeWord cfg w p0 p1 p2).map (fun _ => ()) = checkWord cfg w ks := by
  rcases decodeWord_format cfg w hw with ⟨hop, mk, hd⟩ | ⟨hop, hd⟩ | ⟨hop, mk, hd⟩ | ⟨hop, mk, hd⟩ | ⟨hop, hd⟩ | ⟨hop, -⟩
  · obtain rfl : [.read, .read, .write] = ks := by
      simp only [List.mem_cons, List.not_mem_nil, or_false] at hop
      rcases hop with hop | hop | hop | hop <;> simpa [hop, paramKinds] using hks
    rw [hd]
    simp only [decodeF4, checkWord, checkModes, List.length_cons, List.length_nil]
    cases decodeMode w .read 0 <;> cases decodeMode w .read 1 <;> cases decodeMode w .write 2 <;>
      cases checkExcess cfg w 3 <;> rfl
  · obtain rfl : [.write] = ks := by simpa [hop, paramKinds] using hks
    rw [hd]
    simp only [decodeF2, checkWord, checkModes, List.length_cons, List.length_nil]
    cases decodeMode w .write 0 <;> cases checkExcess cfg w 1 <;> rfl
  · obtain rfl : [.read] = ks := by
      simp only [List.mem_cons, List.not_mem_nil, or_false] at hop
      rcases hop with hop | hop <;> simpa [hop, paramKinds] using hks
    rw [hd]
    simp only [decodeF2, checkWord, checkModes, List.length_cons, List.length_nil]
    cases decodeMode w .read 0 <;> cases checkExcess cfg w 1 <;> rfl
  · obtain rfl : [.read, .read] = ks := by
      simp only [List.mem_cons, List.not_mem_nil, or_false] at hop
      rcases hop with hop | hop <;> simpa [hop, paramKinds] using hks
    rw [hd]
    simp only [decodeF3, checkWord, checkModes, List.length_cons, List.length_nil]
    cases decodeMode w .read 0 <;> cases decodeMode w .read 1 <;> cases checkExcess cfg w 2 <;> rfl
  · obtain rfl : [] = ks := by simpa [hop, paramKinds] using hks
    rw [hd]
    simp only [decodeF1, checkWord, checkModes, List.length_nil]
    cases checkExcess cfg w 0 <;> rfl
  · rw [paramKinds_eq_none_iff.mpr hop] at hks
    cases hks

theorem decodeWord_of_not_legalOpcode (p0 p1 p2 : Int) (h : ¬ legalOpcode (opcodeField w)) :
    decodeWord cfg w p0 p1 p2 = .error { kind := .invalidOpcode } := by
  rcases lt_or_ge w 0 with hw | hw
  · exact decodeWord_neg cfg w p0 p1 p2 hw
  · rcases decodeWord_format cfg w hw with ⟨hop, -⟩ | ⟨hop, -⟩ | ⟨hop, -⟩ | ⟨hop, -⟩ | ⟨hop, -⟩ | ⟨-, hd⟩
    case inr.inr.inr.inr.inr => exact hd p0 p1 p2
    all_goals
      simp only [List.mem_cons, List.not_mem_nil, or_false] at hop h
      omega

theorem decodeWord_error_iff_checkWord {e : Raise} (p0 p1 p2 : Int) (hw : 0 ≤ w)
    (hks : paramKinds (opcodeField w) = some ks) :
    decodeWord cfg w p0 p1 p2 = .error e ↔ checkWord cfg w ks = .error e := by
  rw [← decodeWord_map p0 p1 p2 hw hks]
  cases decodeWord cfg w p0 p1 p2 <;> simp [Except.map]

theorem exists_decodeWord_ok_iff_checkWord (p0 p1 p2 : Int) (hw : 0 ≤ w) (hks : paramKinds (opcodeField w) = some ks) :
    (∃ i, decodeWord cfg w p0 p1 p2 = .ok i) ↔ checkWord cfg w ks = .ok () := by
  rw [← decodeWord_map p0 p1 p2 hw hks]
  cases decodeWord cfg w p0 p1 p2 <;> simp [Except.map]

/-! ## Legal words (R71) -/

theorem exists_decodeMode_ok_iff {kind : OperandKind} {k : Nat} :
    (∃ m, decodeMode w kind k = .ok m) ↔
      legalModeDigit (digit w (k + 2)) ∧ (kind = .write → digit w (k + 2) ≠ 1) := by
  simp only [decodeMode_ok_iff, List.mem_cons, List.not_mem_nil, or_false]
  constructor
  · rintro ⟨m, hd, hw⟩
    cases m <;> simp_all [Mode.digit]
  · rintro ⟨hd | hd | hd, hw⟩
    · exact ⟨.position, hd, nofun⟩
    · exact ⟨.immediate, hd, fun hk => absurd hd (hw hk)⟩
    · exact ⟨.relative, hd, nofun⟩

theorem checkModes_ok_iff (j : Nat) (ks : List OperandKind) :
    checkModes w j ks = .ok () ↔ ∀ k (h : k < ks.length), ∃ m, decodeMode w ks[k] (j + k) = .ok m := by
  induction ks generalizing j with
  | nil => simp [checkModes]
  | cons kind ks ih =>
    simp only [checkModes, bind_eq_ok, ih]
    constructor
    · rintro ⟨m, hm, hrest⟩ k hk
      match k, hk with
      | 0, _ => exact ⟨m, hm⟩
      | k + 1, hk => rw [← Nat.add_assoc, Nat.add_right_comm]; exact hrest k (Nat.lt_of_succ_lt_succ hk)
    · intro h
      obtain ⟨m, hm⟩ := h 0 (by simp)
      refine ⟨m, hm, fun k hk => ?_⟩
      rw [Nat.add_right_comm, Nat.add_assoc]
      exact h (k + 1) (Nat.succ_lt_succ hk)

theorem quotient_pow10 (w : Int) (k : Nat) : quotient w (pow10 k) = w.tdiv (10 ^ k) := by
  simp [quotient, pow10]

theorem checkWord_ok_iff_checks :
    checkWord cfg w ks = .ok () ↔ checkModes w 0 ks = .ok () ∧ checkExcess cfg w ks.length = .ok () := by
  unfold checkWord
  cases checkModes w 0 ks <;> simp

theorem checkWord_ok_iff :
    checkWord cfg w ks = .ok () ↔
      (∀ k (h : k < ks.length), legalModeDigit (digit w (k + 2)) ∧ (ks[k] = .write → digit w (k + 2) ≠ 1)) ∧
        (cfg.excessDigits = .reject → w.tdiv (10 ^ (ks.length + 2)) = 0) := by
  simp only [checkWord_ok_iff_checks, checkModes_ok_iff, checkExcess_ok_iff, exists_decodeMode_ok_iff, quotient_pow10,
    Nat.zero_add]

theorem exists_decodeWord_ok_iff (p0 p1 p2 : Int) :
    (∃ i, decodeWord cfg w p0 p1 p2 = .ok i) ↔
      0 ≤ w ∧ ∃ ks, paramKinds (opcodeField w) = some ks ∧ checkWord cfg w ks = .ok () := by
  constructor
  · rintro ⟨i, hi⟩
    obtain ⟨hw, hop, -⟩ := (decodeWord_ok_iff ..).mp hi
    have hks : paramKinds (opcodeField w) = some (i.operands.map Prod.fst) := hop ▸ paramKinds_opcode i
    exact ⟨hw, _, hks, (exists_decodeWord_ok_iff_checkWord p0 p1 p2 hw hks).mp ⟨i, hi⟩⟩
  · rintro ⟨hw, ks, hks, hc⟩
    exact (exists_decodeWord_ok_iff_checkWord p0 p1 p2 hw hks).mpr hc

theorem wellFormed_of_decodeWord {W : Nat} {p0 p1 p2 : Int} {i : Instr} (h : decodeWord cfg w p0 p1 p2 = .ok i)
    (h0 : isWord W p0) (h1 : isWord W p1) (h2 : isWord W p2) : i.wellFormed W := by
  obtain ⟨-, -, hmodes, -, hparams⟩ := (decodeWord_ok_iff ..).mp h
  intro p hp
  constructor
  · have hmem : p.2.param ∈ [p0, p1, p2] :=
      List.mem_of_mem_take (hparams ▸ List.mem_map_of_mem (f := fun p : OperandKind × Operand => p.2.param) hp)
    simp only [List.mem_cons, List.not_mem_nil, or_false] at hmem
    rcases hmem with h | h | h <;> rwa [h]
  · obtain ⟨k, hk, rfl⟩ := List.getElem_of_mem hp
    exact ((decodeMode_ok_iff ..).mp (hmodes k hk)).2

/-- No check reads a parameter word, so none makes an encoding illegal (R71). -/
theorem decodeWord_error_any_params {e : Raise} {p0 p1 p2 : Int} (h : decodeWord cfg w p0 p1 p2 = .error e)
    (q0 q1 q2 : Int) : decodeWord cfg w q0 q1 q2 = .error e := by
  by_cases hop : legalOpcode (opcodeField w)
  · have hw : 0 ≤ w := not_lt.mp fun hneg => (not_legalOpcode_opcodeField_iff w).mpr (.inl hneg) hop
    obtain ⟨ks, hks⟩ := Option.ne_none_iff_exists'.mp fun hnone => paramKinds_eq_none_iff.mp hnone hop
    rw [decodeWord_error_iff_checkWord _ _ _ hw hks] at h ⊢
    exact h
  · rwa [decodeWord_of_not_legalOpcode _ _ _ hop] at h ⊢

/-- Settles O5: `exists_decodeWord_ok_iff` with the checks spelled out, `wellFormed_of_decodeWord`, and
`decodeWord_error_any_params`. -/
theorem legalEncodingsAreExactlyThese : Obligations.LegalEncodingsAreExactlyThese := by
  intro cfg w p0 p1 p2
  refine ⟨?_, fun i h h0 h1 h2 => wellFormed_of_decodeWord h h0 h1 h2, fun e h => ⟨?_, decodeWord_error_any_params h⟩⟩
  · simp only [exists_decodeWord_ok_iff, checkWord_ok_iff]
    rfl
  · obtain ⟨-, rfl | ⟨k, d, rfl⟩ | ⟨k, rfl⟩⟩ := decodeWord_error cfg w p0 p1 p2 e h <;> simp

/-! ## Digits above the mode digits (R70) -/

theorem digit_add_mul_pow (hw : 0 ≤ w) (x : Nat) {k n : Nat} (h : k < n) :
    digit (w + (x : Int) * 10 ^ n) k = digit w k := by
  obtain ⟨a, rfl⟩ := Int.eq_ofNat_of_zero_le hw
  obtain ⟨d, rfl⟩ : ∃ d, n = k + (d + 1) := ⟨n - k - 1, by omega⟩
  have hsplit : a + x * 10 ^ (k + (d + 1)) = a + 10 ^ k * (10 * (x * 10 ^ d)) := by ring
  have hcast : (a : Int) + (x : Int) * 10 ^ (k + (d + 1)) = ((a + x * 10 ^ (k + (d + 1)) : Nat) : Int) := by push_cast; rfl
  rw [hcast, digit_natCast, digit_natCast, hsplit, Nat.add_mul_div_left _ _ (by positivity), Nat.add_mul_mod_self_left]

theorem opcodeField_add_mul_pow (hw : 0 ≤ w) (x n : Nat) :
    opcodeField (w + (x : Int) * 10 ^ (n + 2)) = opcodeField w := by
  obtain ⟨a, rfl⟩ := Int.eq_ofNat_of_zero_le hw
  have hcast : (a : Int) + (x : Int) * 10 ^ (n + 2) = ((a + 100 * (x * 10 ^ n) : Nat) : Int) := by push_cast; ring
  rw [hcast, opcodeField_natCast, opcodeField_natCast, Nat.add_mul_mod_self_left]

theorem decodeMode_congr {kind : OperandKind} {k : Nat} (h : digit v (k + 2) = digit w (k + 2)) :
    decodeMode v kind k = decodeMode w kind k := by
  unfold decodeMode
  rw [h]

theorem checkModes_congr (j : Nat) (ks : List OperandKind)
    (h : ∀ k < ks.length, digit v (j + k + 2) = digit w (j + k + 2)) : checkModes v j ks = checkModes w j ks := by
  induction ks generalizing j with
  | nil => rfl
  | cons kind ks ih =>
    have hhead : digit v (j + 2) = digit w (j + 2) := h 0 (by simp)
    have htail : checkModes v (j + 1) ks = checkModes w (j + 1) ks := by
      refine ih (j + 1) fun k hk => ?_
      simpa [Nat.add_assoc, Nat.add_comm 1] using h (k + 1) (by simpa using hk)
    simp only [checkModes, decodeMode_congr hhead, htail]

/-- Under `ignore` a word is its opcode and its mode digits: two words that agree in them decode alike. -/
theorem decodeWord_congr (p0 p1 p2 : Int) (hx : cfg.excessDigits = .ignore) (hv : 0 ≤ v) (hw : 0 ≤ w)
    (hop : opcodeField v = opcodeField w) (hks : paramKinds (opcodeField w) = some ks)
    (hd : ∀ k < ks.length, digit v (k + 2) = digit w (k + 2)) :
    decodeWord cfg v p0 p1 p2 = decodeWord cfg w p0 p1 p2 := by
  cases h : decodeWord cfg w p0 p1 p2 with
  | error e =>
    rw [decodeWord_error_iff_checkWord p0 p1 p2 hw hks] at h
    rw [decodeWord_error_iff_checkWord p0 p1 p2 hv (hop ▸ hks), ← h]
    unfold checkWord
    rw [checkModes_congr 0 ks (by simpa using hd), checkExcess_ignore cfg v _ hx, checkExcess_ignore cfg w _ hx]
  | ok i =>
    obtain ⟨-, hopi, hm, -, hp⟩ := (decodeWord_ok_iff ..).mp h
    refine (decodeWord_ok_iff ..).mpr ⟨hv, hop.trans hopi, fun k hk => ?_, checkExcess_ignore cfg v _ hx, hp⟩
    rw [hopi, paramKinds_opcode, Option.some.injEq] at hks
    rw [decodeMode_congr (hd k (by simpa [← hks] using hk))]
    exact hm k hk

/-- Settles O4: adding above the mode digits leaves the opcode and the mode digits, which are all that decode reads. -/
theorem excessDigitsAreIgnored : Obligations.ExcessDigitsAreIgnored := by
  intro cfg w p0 p1 p2 ks x hx hw hks
  exact decodeWord_congr p0 p1 p2 hx (by positivity) hw (opcodeField_add_mul_pow hw x ks.length) hks
    fun k hk => digit_add_mul_pow hw x (by omega)

/-! ## The length of an instruction (R63) -/

/-- Settles O6: the legal half is `decode_cons_ok_iff_append` at the opcode of the instruction decoded; the illegal half stops
at `decodeWord_of_not_legalOpcode`. -/
theorem lengthFromOpcodeAlone : Obligations.LengthFromOpcodeAlone := by
  refine fun cfg w ps => ⟨fun i rest h => ?_, fun hnone => ?_⟩
  · obtain ⟨⟨-, hop, hm, -⟩, rfl⟩ := decode_cons_ok_iff_append.mp h
    have hlen : (i.operands.map (fun p => p.2.param)).length = i.nparams := List.length_map _
    have hkinds : paramKinds (opcodeField w) = some (i.operands.map Prod.fst) := hop ▸ paramKinds_opcode i
    refine ⟨hkinds, (List.take_left' hlen).symm, (List.drop_left' hlen).symm, fun k hk => ?_⟩
    exact ((decodeMode_ok_iff ..).mp (hm k hk)).1.symm
  · have hop : ¬ legalOpcode (opcodeField w) := paramKinds_eq_none_iff.mp hnone
    simp only [decode, decodeWord_of_not_legalOpcode _ _ _ hop]

end Sys2Proof
end

section
/-! SUPPORT. How a step ends in a fault of phase D (R66, R157), and what each mode of an operand resolves to (R65, R86, R87). -/

namespace Sys2Proof.Machine

open Sys2Proof.Claims

variable {s : State} {w : Int} {e : Raise}

/-- A fetched word that the decoder refuses ends the step in the decoder's fault, with the word recorded. -/
theorem step_entersFault_of_decodeFetched_error (hs : active s) (hw : fetches s w) (he : s.decodeFetched w = .error e) :
    entersFault (step s) s e.kind (some w) e.param e.mode e.addr := by
  obtain ⟨hpc, rfl⟩ := hw
  have hfetch : s.resume.fetchDecode = .error e := by rw [State.fetchDecode_resume, State.fetchDecode_eq, if_pos hpc, he]
  rw [entersFault, step_active s ((ExecState.terminal_eq_false s.st).mpr hs), stepInstr_of_error _ _ hfetch,
    State.faultEntry_resume, State.faultEntry, s.wordAtPc_of_inBounds hpc]

/-- There is no return from a fault (R159). -/
theorem step_of_entersFault {o : Host.Outcome State Fault Refusal} {kind : FaultKind} {word : Option Int}
    {param : Option Nat} {mode addr : Option Int} (h : entersFault o s kind word param mode addr) {t : State}
    (ht : o = .next t) : step t = .next t := by
  cases h.symm.trans ht
  exact step_terminal _ rfl

/-- Settles O7: the decoder refuses the word before it reads a mode digit, and its fault ends the step. -/
theorem illegalOpcodeFaults : Obligations.IllegalOpcodeFaults := by
  refine ⟨fun s w hs hw hop => ?_, not_legalOpcode_opcodeField_iff⟩
  have hfault := step_entersFault_of_decodeFetched_error hs hw (decodeWord_of_not_legalOpcode _ _ _ hop)
  exact ⟨hfault, fun t ht => step_of_entersFault hfault ht⟩

/-! ## Operands (R65) -/

/-- `MemRead` with its bounds check written out (R43). -/
theorem State.memRead_eq (s : State) (a : Int) (param : Option Nat) :
    s.memRead a param = if 0 ≤ a ∧ a < (s.cfg.cap : Int) then .ok (s.mem.get a.toNat)
      else .error { kind := .outOfBounds, param := param, addr := some a } := by
  simp only [State.memRead, State.inBounds_iff, raiseOutOfBounds]

/-- The check of a write address written out (R87). -/
theorem State.checkedAddress_eq (s : State) (i : Nat) (a : Int) :
    s.checkedAddress i a = if 0 ≤ a ∧ a < (s.cfg.cap : Int) then .ok a
      else .error { kind := .outOfBounds, param := some i, addr := some a } := by
  simp only [State.checkedAddress, State.inBounds_iff, raiseOutOfBounds]

/-- Settles O12: each mode is one access at its effective address, or none. -/
theorem operandModesResolve : Obligations.OperandModesResolve :=
  fun s i p => ⟨s.memRead_eq p (some i), rfl, s.memRead_eq (s.rb + p) (some i),
    s.checkedAddress_eq i p, rfl, s.checkedAddress_eq i (s.rb + p)⟩

end Sys2Proof.Machine
end

section
/-! SUPPORT. The step from an active state (R80 to R85): which instruction it runs, where it enters a fault, and the four ends it
has (`step_ends`). -/

namespace Sys2Proof.Machine

open Sys2Proof.Claims

variable {s t : State} {i : Instr} {e : Raise}

/-! ## Fetch and decode (R83 to R85) -/

theorem step_of_active (hs : active s) : step s = stepInstr s.resume :=
  step_active s ((ExecState.terminal_eq_false s.st).mpr hs)

theorem step_of_fetchDecode_ok (hs : active s) (h : s.fetchDecode = .ok i) : step s = exec i s.resume := by
  rw [step_of_active hs, stepInstr_of_ok s.resume i h]

theorem step_of_fetchDecode_error (hs : active s) (h : s.fetchDecode = .error e) : step s = .next (s.faultEntry e) := by
  rw [step_of_active hs, stepInstr_of_error s.resume e h, State.faultEntry_resume]

/-- Settles O10: out of bounds the fetch raises, and its fault entry ends the step; in bounds it reads. -/
theorem fetchOutOfBoundsFaults : Obligations.FetchOutOfBoundsFaults := by
  refine fun s hs => ⟨fun hpc => ?_, fun h0 hcap => ?_⟩
  · have hout : s.inBounds s.pc = false := State.inBounds_eq_false_iff.mpr hpc
    have hfetch : s.fetchDecode = .error (raiseOutOfBounds s.pc none) := by simp [State.fetchDecode_eq, hout]
    rw [entersFault, step_of_fetchDecode_error hs hfetch, State.faultEntry, s.wordAtPc_of_outOfBounds hout]
    rfl
  · rw [State.fetch_eq, if_pos ((s.inBounds_iff s.pc).mpr ⟨h0, hcap⟩)]

/-- Settles O11: `decode` on the words at `pc` answers as phases F and D do (`State.decodeFetched_ok_iff`,
`State.decodeFetched_error_iff`). -/
theorem stepRunsDecodedInstruction : Obligations.StepRunsDecodedInstruction := by
  refine fun s hs hpc => ⟨fun i rest h => ?_, fun r h => ?_⟩
  · have hi : s.fetchDecode = .ok i := by
      rw [State.fetchDecode_eq, if_pos hpc]
      exact (s.decodeFetched_ok_iff i).mpr ⟨rest, h⟩
    exact step_of_fetchDecode_ok hs hi
  · exact step_entersFault_of_decodeFetched_error hs ⟨hpc, rfl⟩ ((s.decodeFetched_error_iff r).mpr h)

/-! ## The execution state after an instruction (R82) -/

/-- `st` after an instruction that completes: left, but by a starved input and by a halt, which change nothing else. -/
theorem effect_st (h : s.effect i = .ok t) :
    t.st = s.st ∨ (∃ d, i = .input d ∧ s.inputs = [] ∧ t = s.suspend) ∨ (i = .halt ∧ t = s.stop) := by
  rcases effect_ok_cases s t i h with ⟨d, v, -, -, -, rfl, -⟩ | ⟨d, rfl, -, -, rfl⟩ | ⟨a, -, rfl⟩ | ⟨a, b, -, rfl | rfl⟩ |
    ⟨a, r, -, -, rfl⟩ | ⟨rfl, rfl⟩
  case inr.inl =>
    rcases s.takeInput_cases (s.effectiveAddress d) with ⟨hin, heq⟩ | ⟨v, vs, -, heq⟩
    · exact .inr (.inl ⟨d, rfl, hin, heq⟩)
    · exact .inl (by rw [heq]; rfl)
  case inr.inr.inr.inr.inr => exact .inr (.inr ⟨rfl, rfl⟩)
  all_goals exact .inl rfl

/-- An input that resolves suspends where `inputs` is empty. -/
theorem exec_input_starved {d : Operand} (hin : s.inputs = []) (hp : s.paramsInBounds 1) (hd : s.writable d = true) :
    exec (.input d) s = .next s.suspend := by
  rw [exec_eq_complete, (effect_input_ok_iff s _ d).mpr ⟨⟨hp, hd⟩, rfl⟩, s.takeInput_nil _ hin, State.complete_ok]

/-- An instruction that ends `Waiting` from `Ready` is a starved input, resolved. -/
theorem exec_waiting (hs : s.st = .ready) (h : exec i s = .next t) (ht : t.st = .waiting) :
    t = s.suspend ∧ ∃ d, i = .input d ∧ s.inputs = [] ∧ s.paramsInBounds 1 ∧ s.writable d = true := by
  rw [exec_eq_complete, State.complete_eq_next] at h
  rcases h with h | ⟨e, -, rfl⟩
  · rcases effect_st h with hst | ⟨d, rfl, hin, rfl⟩ | ⟨-, rfl⟩
    · simp [hst, hs] at ht
    · obtain ⟨⟨hp, hd⟩, -⟩ := (effect_input_ok_iff s _ d).mp h
      exact ⟨rfl, d, rfl, hin, hp, hd⟩
    · cases ht
  · cases ht

theorem exec_output_st {a : Operand} (h : exec (.output a) s = .next t) : t.st = s.st ∨ t.st = .faulted := by
  rw [exec_eq_complete, State.complete_eq_next] at h
  rcases h with h | ⟨e, -, rfl⟩
  · obtain ⟨-, rfl⟩ := (effect_output_ok_iff s t a).mp h
    exact .inl rfl
  · exact .inr rfl

/-- Settles O31: `exec_waiting` one way, `exec_input_starved` the other. -/
theorem onlyStarvedInputSuspends : Obligations.OnlyStarvedInputSuspends := by
  refine fun i s t hs h => ⟨⟨fun ht => (exec_waiting hs h ht).2, ?_⟩, fun ht => (exec_waiting hs h ht).1, ?_⟩
  · rintro ⟨d, rfl, hin, hp, hd⟩
    rw [exec_input_starved hin hp hd] at h
    cases h
    rfl
  · rintro a rfl
    exact hs ▸ exec_output_st h

/-- How a step ends from an active state (R82): the instruction at `pc` completes, an input starves, a halt stops, or a fault is
entered. -/
theorem step_ends (hs : active s) (h : step s = .next t) :
    (∃ i, s.fetchDecode = .ok i ∧ exec i s.resume = .next t ∧ t.st = .ready) ∨
      (∃ d, s.fetchDecode = .ok (.input d) ∧ s.inputs = [] ∧ t = s.suspend) ∨
      (s.fetchDecode = .ok .halt ∧ t = s.stop) ∨
      ∃ e, t = s.faultEntry e := by
  rw [step_of_active hs] at h
  rcases stepInstr_cases s.resume t h with ⟨e, -, rfl⟩ | ⟨i, hi, heff | ⟨e, -, rfl⟩⟩
  · exact .inr (.inr (.inr ⟨e, rfl⟩))
  · rcases effect_st heff with hst | ⟨d, rfl, hin, rfl⟩ | ⟨rfl, rfl⟩
    · exact .inl ⟨i, hi, by rw [exec_eq_complete, heff, State.complete_ok], hst⟩
    · exact .inr (.inl ⟨d, hi, hin, rfl⟩)
    · exact .inr (.inr (.inl ⟨hi, rfl⟩))
  · exact .inr (.inr (.inr ⟨e, rfl⟩))

theorem exists_step_eq_next (hs : active s) : ∃ t, step s = .next t := by
  rw [step_of_active hs]
  exact stepInstr_next s.resume

/-- Settles O34: a step answers a next state (`exists_step_eq_next`), which is one of the ends of `step_ends`. -/
theorem stepHasFourOutcomes : Obligations.StepHasFourOutcomes := by
  refine ⟨fun s hs => ?_, exec_next⟩
  obtain ⟨t, ht⟩ := exists_step_eq_next hs
  refine ⟨t, ht, ?_⟩
  rcases step_ends hs ht with hready | hwait | hhalt | ⟨e, rfl⟩
  · exact .inl hready
  · exact .inr (.inl hwait)
  · exact .inr (.inr (.inl hhalt))
  · exact .inr (.inr (.inr ⟨_, rfl⟩))

end Sys2Proof.Machine
end

section
/-! SUPPORT. The run (R80, R81, R91, R93), by one equation: `run` with one more step of fuel is a step, and the run from there
while the state is `Ready` (`run_succ_of_step`). -/

namespace Sys2Proof.Machine

open Sys2Proof.Claims

variable {s t u : State} {n k : Nat}

/-! ## Terminal states (R81) -/

theorem run_terminal (n : Nat) (h : s.st.terminal = true) : run n s = some s :=
  if_pos h

theorem run_core_terminal (n : Nat) (h : s.st.terminal = true) : Host.Core.run core n s = .next s := by
  induction n with
  | zero => rfl
  | succ n ih => rw [run_core_succ n s s (step_terminal s h), ih]

/-- Settles O33: a step and a run are both the identity there. -/
theorem terminalStatesNeverChange : Obligations.TerminalStatesNeverChange := by
  intro s hs
  have hterm : s.st.terminal = true := (ExecState.terminal_eq_true s.st).mpr hs
  exact ⟨fun n => run_core_terminal n hterm, fun n => run_terminal n hterm⟩

/-! ## The run, step by step (R80) -/

theorem run_of_active (n : Nat) (hs : active s) : run n s = runLoop n s.resume := by
  simp [run, (ExecState.terminal_eq_false s.st).mpr hs]

theorem run_zero_of_active (hs : active s) : run 0 s = none :=
  run_of_active 0 hs

theorem run_succ_of_step (n : Nat) (hs : active s) (h : step s = .next u) :
    run (n + 1) s = if u.st = .ready then run n u else some u := by
  rw [step_of_active hs] at h
  rw [run_of_active _ hs, runLoop_succ n s.resume u h]
  by_cases hu : u.st = .ready
  · rw [if_pos hu, if_pos hu, run_of_active n (.inl hu), u.resume_of_ready hu]
  · rw [if_neg hu, if_neg hu]

/-- A run that ends from an active state ends with a step of an active state. -/
theorem run_ends_with_step (hs : active s) (h : run n s = some t) : ∃ u, active u ∧ step u = .next t ∧ t.st ≠ .ready := by
  induction n generalizing s with
  | zero => simp [run_zero_of_active hs] at h
  | succ n ih =>
    obtain ⟨u, hu⟩ := exists_step_eq_next hs
    rw [run_succ_of_step n hs hu] at h
    split at h
    · next hready => exact ih (.inl hready) h
    · next hend =>
      cases h
      exact ⟨s, hs, hu, hend⟩

/-- Settles O35: the last step of the run has one of the ends of `step_ends`, and not the first; the others leave what stands at
`pc`. -/
theorem runEndsWaitingHaltedOrFaulted : Obligations.RunEndsWaitingHaltedOrFaulted := by
  intro n s t hs h
  obtain ⟨u, hu, hstep, hend⟩ := run_ends_with_step hs h
  rcases step_ends hu hstep with ⟨-, -, -, hready⟩ | ⟨d, hd, hin, rfl⟩ | ⟨hhalt, rfl⟩ | ⟨e, rfl⟩
  · exact absurd hready hend
  · exact .inl ⟨rfl, hin, d, hd⟩
  · exact .inr (.inl ⟨rfl, hhalt⟩)
  · exact .inr (.inr ⟨rfl, _, rfl, rfl⟩)

/-! ## The run as iterated steps -/

/-- After `k` steps from `s` the machine is in `t`, for the first time not `Ready`. -/
def EndsAfter (k : Nat) (s t : State) : Prop :=
  Host.Core.run core k s = .next t ∧ t.st ≠ .ready ∧
    ∀ j u, 0 < j → j < k → Host.Core.run core j s = .next u → u.st = .ready

theorem endsAfter_one_iff (h : step s = .next u) : EndsAfter 1 s t ↔ u.st ≠ .ready ∧ u = t := by
  have hrun : Host.Core.run core 1 s = .next u := run_core_succ 0 s u h
  constructor
  · rintro ⟨ht, hend, -⟩
    cases hrun.symm.trans ht
    exact ⟨hend, rfl⟩
  · rintro ⟨hend, rfl⟩
    exact ⟨hrun, hend, fun j _ h0 h1 => by omega⟩

theorem endsAfter_add_two_iff (h : step s = .next u) : EndsAfter (k + 2) s t ↔ u.st = .ready ∧ EndsAfter (k + 1) u t := by
  simp only [EndsAfter, run_core_succ (k + 1) s u h]
  constructor
  · rintro ⟨hrun, hend, hbefore⟩
    refine ⟨hbefore 1 u (by omega) (by omega) (run_core_succ 0 s u h), hrun, hend, fun j v _ hj hv => ?_⟩
    exact hbefore (j + 1) v (by omega) (by omega) ((run_core_succ j s u h).trans hv)
  · rintro ⟨hready, hrun, hend, hbefore⟩
    refine ⟨hrun, hend, fun j v h0 hj hv => ?_⟩
    obtain ⟨j, rfl⟩ := Nat.exists_eq_succ_of_ne_zero h0.ne'
    rw [Nat.succ_eq_add_one, run_core_succ j s u h] at hv
    rcases Nat.eq_zero_or_pos j with rfl | hpos
    · cases hv
      exact hready
    · exact hbefore j v hpos (by omega) hv

theorem run_eq_some_iff (hs : active s) : run n s = some t ↔ ∃ k < n, EndsAfter (k + 1) s t := by
  induction n generalizing s with
  | zero => simp [run_zero_of_active hs]
  | succ n ih =>
    obtain ⟨u, hu⟩ := exists_step_eq_next hs
    rw [run_succ_of_step n hs hu, Nat.exists_lt_succ_left]
    simp only [Nat.zero_add, endsAfter_one_iff hu, endsAfter_add_two_iff hu]
    by_cases hready : u.st = .ready
    · simp [hready, ih (.inl hready)]
    · simp [hready]

/-- Settles O36: `run_eq_some_iff`, with the number of steps counted from 1. -/
theorem runIsIteratedStep : Obligations.RunIsIteratedStep := by
  intro n s t hs
  rw [run_eq_some_iff hs]
  constructor
  · rintro ⟨k, hk, hend⟩
    exact ⟨k + 1, k.succ_pos, hk, hend⟩
  · rintro ⟨k, h0, hk, hend⟩
    obtain ⟨k, rfl⟩ := Nat.exists_eq_succ_of_ne_zero h0.ne'
    exact ⟨k, hk, hend⟩

/-- Settles O37: from an active state fuel is only the bound of `run_eq_some_iff`; in a terminal one it is not used. -/
theorem fuelOnlyBoundsTheWait : Obligations.FuelOnlyBoundsTheWait := by
  intro n k s t h
  cases hterm : s.st.terminal with
  | true => rwa [run_terminal _ hterm] at h ⊢
  | false =>
    have hs : active s := (ExecState.terminal_eq_false s.st).mp hterm
    obtain ⟨m, hm, hend⟩ := (run_eq_some_iff hs).mp h
    exact (run_eq_some_iff hs).mpr ⟨m, by omega, hend⟩

end Sys2Proof.Machine
end

section
/-! SUPPORT. What a step reads (R92): the step of a state is the step of the part of it that is read (`State.visible`), put back
beside the part that is not (`State.rejoin`). -/

namespace Sys2Proof.Machine

open Sys2Proof.Claims

variable {s t : State}

/-! ## The part that is read, and the operations on it -/

/-- The part of an active state that a step reads, as a state: the front of `inputs` alone, no outputs, `Ready`, no record. -/
def State.visible (s : State) : State :=
  { s with inputs := s.inputs.head?.toList, outputs := [], st := .ready, flt := none }

/-- `t`, reached from `s.visible`, beside what `s.visible` left out of `s`: the inputs that were not taken, the outputs before
`t`'s, and the old record where there is no new one. -/
def State.rejoin (s t : State) : State :=
  { t with
    inputs := s.inputs.drop (s.visible.inputs.length - t.inputs.length)
    outputs := s.outputs ++ t.outputs
    flt := t.flt.or s.flt }

theorem State.rejoin_takeInput (s : State) (a : Int) : s.rejoin (s.visible.takeInput a) = s.resume.takeInput a := by
  cases hin : s.inputs <;>
    simp [State.takeInput, State.visible, hin, State.rejoin, State.suspend, State.advance, State.setPc, State.store,
      State.dropInput, State.resume]

theorem State.rejoin_pushOutput (s : State) (v : Int) :
    s.rejoin ((s.visible.pushOutput v).advance 2) = (s.resume.pushOutput v).advance 2 := by
  simp [State.rejoin, State.visible, State.advance, State.setPc, State.pushOutput, State.resume]

/-- The other operations touch no queue. -/
theorem State.rejoin_of_untouched (hin : t.inputs = s.visible.inputs) (hout : t.outputs = []) :
    s.rejoin t = { t with inputs := s.inputs, outputs := s.outputs, flt := t.flt.or s.flt } := by
  simp [State.rejoin, hin, hout]

theorem State.rejoin_store (s : State) (a v : Int) :
    s.rejoin ((s.visible.store a v).advance 4) = (s.resume.store a v).advance 4 :=
  State.rejoin_of_untouched rfl rfl

theorem State.rejoin_setPc (s : State) (v : Int) : s.rejoin (s.visible.setPc v) = s.resume.setPc v :=
  State.rejoin_of_untouched rfl rfl

theorem State.rejoin_advance (s : State) (k : Int) : s.rejoin (s.visible.advance k) = s.resume.advance k :=
  State.rejoin_of_untouched rfl rfl

theorem State.rejoin_setRb (s : State) (v : Int) :
    s.rejoin ((s.visible.setRb v).advance 2) = (s.resume.setRb v).advance 2 :=
  State.rejoin_of_untouched rfl rfl

theorem State.rejoin_stop (s : State) : s.rejoin s.visible.stop = s.resume.stop :=
  State.rejoin_of_untouched rfl rfl

/-- The record of a fault is made of `pc` and memory alone. -/
theorem State.rejoin_faultEntry (s : State) (e : Raise) : s.rejoin (s.visible.faultEntry e) = s.resume.faultEntry e :=
  State.rejoin_of_untouched rfl rfl

/-! ## Instructions and steps

Phase O reads `cfg`, `mem`, `pc` and `rb`, which both states share, so each proof below ends in `rfl` once `rejoin` stands at
the end of the chain of checks. -/

theorem State.binaryToMemory_visible (s : State) (a b d : Operand) (f : Int → Int → Except Raise Int) :
    s.rejoin <$> s.visible.binaryToMemory a b d f = s.resume.binaryToMemory a b d f := by
  simp only [State.binaryToMemory, map_bind, map_pure, State.rejoin_store]
  rfl

theorem State.jumpWhen_visible (s : State) (a b : Operand) (taken : Int → Bool) :
    s.rejoin <$> s.visible.jumpWhen a b taken = s.resume.jumpWhen a b taken := by
  simp only [State.jumpWhen, map_bind, map_pure, apply_ite s.rejoin, State.rejoin_setPc, State.rejoin_advance]
  rfl

/-- An instruction reads no more of the state than `visible` keeps: its effect there is its effect, fault or not. -/
theorem effect_visible (s : State) (i : Instr) : s.rejoin <$> s.visible.effect i = s.resume.effect i := by
  cases i with
  | add a b d => exact s.binaryToMemory_visible a b d (aluAdd s.cfg)
  | mul a b d => exact s.binaryToMemory_visible a b d (aluMul s.cfg)
  | input d =>
    simp only [State.effect, map_bind, map_pure, State.rejoin_takeInput]
    rfl
  | output a =>
    simp only [State.effect, map_bind, map_pure, State.rejoin_pushOutput]
    rfl
  | jumpIfTrue a b => exact s.jumpWhen_visible a b (fun x => !zeroTest x)
  | jumpIfFalse a b => exact s.jumpWhen_visible a b zeroTest
  | lessThan a b d => exact s.binaryToMemory_visible a b d (fun x y => .ok (aluLt x y))
  | equals a b d => exact s.binaryToMemory_visible a b d (fun x y => .ok (aluEq x y))
  | adjustRelativeBase a =>
    simp only [State.effect, map_bind, map_pure, State.rejoin_setRb]
    rfl
  | halt => exact congrArg Except.ok s.rejoin_stop

theorem active_visible (s : State) : active s.visible := .inl rfl

/-- A step reads no more of an active state than `visible` keeps. -/
theorem step_of_step_visible (hs : active s) (h : step s.visible = .next t) : step s = .next (s.rejoin t) := by
  rw [step_of_active (active_visible s), State.resume_of_ready _ rfl] at h
  rw [step_of_active hs]
  rcases stepInstr_cases _ t h with ⟨e, he, rfl⟩ | ⟨i, hi, hend⟩
  · rw [stepInstr_of_error s.resume e he, s.rejoin_faultEntry]
  · rw [stepInstr_of_ok s.resume i hi, exec_eq_complete, ← effect_visible]
    rcases hend with heff | ⟨e, heff, rfl⟩
    · rw [heff]
      rfl
    · rw [heff, s.rejoin_faultEntry]
      rfl

/-- A step that faults has written its record. -/
theorem flt_isSome_of_step_faulted (hs : active s) (h : step s = .next t) (ht : t.st = .faulted) : t.flt.isSome = true := by
  rcases step_ends hs h with ⟨-, -, -, hready⟩ | ⟨-, -, -, rfl⟩ | ⟨-, rfl⟩ | ⟨e, rfl⟩
  · cases hready.symm.trans ht
  · cases ht
  · cases ht
  · rfl

/-- Settles O38: the two states have one visible part, so both steps are its step, rejoined (`step_of_step_visible`). -/
theorem stepIsDeterminedByWhatItReads : Obligations.StepIsDeterminedByWhatItReads := by
  intro s1 s2 hs1 hs2 hcfg hmem hpc hrb hin
  have hsame : s2.visible = s1.visible := by simp only [State.visible, hcfg, hmem, hpc, hrb, hin]
  obtain ⟨t, ht⟩ := exists_step_eq_next (active_visible s1)
  refine ⟨s1.rejoin t, s2.rejoin t, step_of_step_visible hs1 ht, step_of_step_visible hs2 (hsame ▸ ht), rfl, rfl, rfl, rfl,
    fun hfault => ?_, s1.visible.inputs.length - t.inputs.length, t.outputs, rfl, ?_, rfl, rfl⟩
  · obtain ⟨r, hr⟩ := Option.isSome_iff_exists.mp (flt_isSome_of_step_faulted (active_visible s1) ht hfault)
    simp [State.rejoin, hr]
  · rw [← hsame]
    rfl

end Sys2Proof.Machine
end

section
/-! SUPPORT. Arithmetic (R100 to R104): what `fit` answers, and the two ends of a three-operand instruction whose operands
resolve. -/

namespace Sys2Proof.Machine

open Sys2Proof.Claims

variable {s : State} {a b d : Operand} {f : Int → Int → Except Raise Int} {cfg : Config} {v r : Int}

/-! ## What `fit` answers (R102) -/

/-- The wrap formula over the integers, as the statements write it. -/
theorem wrapWord_eq (W : Nat) (v : Int) : wrapWord W v = (v + 2 ^ (W - 1)).fmod (2 ^ W) - 2 ^ (W - 1) := by
  simp [wrapWord]

theorem fit_eq_ok_iff : fit cfg v = .ok r ↔ fittedResult cfg v r := by
  refine ⟨fittedResult_of_fit, ?_⟩
  rintro (⟨hv, rfl⟩ | ⟨hv, hm, rfl⟩)
  · exact fit_of_isWord cfg r hv
  · simp only [fit_of_not_isWord cfg v hv, hm, wrapWord_eq]

theorem fit_of_overflows (h : overflows cfg v) : fit cfg v = .error { kind := .overflow } := by
  obtain ⟨hv, hm⟩ := h
  simp only [fit_of_not_isWord cfg v hv, hm]

/-- Wrapping takes off a multiple of `2^W`. -/
theorem two_pow_dvd_wrapWord_sub (W : Nat) (v : Int) : 2 ^ W ∣ wrapWord W v - v := by
  have hquot : wrapWord W v - v = -((v + 2 ^ (W - 1)) - (v + 2 ^ (W - 1)).fmod (2 ^ W)) := by
    rw [wrapWord_eq]
    ring
  rw [hquot, dvd_neg]
  exact Int.dvd_self_sub_fmod

/-- Settles O23: a value that is a Word is answered as it is, and one that is not is wrapped, under `wrap` alone. -/
theorem fitAnswersACongruentWord : Obligations.FitAnswersACongruentWord := by
  intro cfg v r hcfg h
  refine ⟨isWord_of_fit cfg v r (by have := hcfg.1; omega) h, ?_⟩
  rcases fittedResult_of_fit h with ⟨-, rfl⟩ | ⟨-, hm, rfl⟩
  · exact ⟨by simp, fun _ => rfl⟩
  · exact ⟨wrapWord_eq cfg.wordBits v ▸ two_pow_dvd_wrapWord_sub cfg.wordBits v, fun hf => by simp [hf] at hm⟩

/-! ## The three-operand instructions (R88, R90) -/

/-- A store in bounds changes the one cell of its address, whatever other fields change with it. -/
theorem wroteOnly_of_mem_eq_set {t : State} {ea : Int} (hea : s.inBounds ea = true) (ht : t.mem = s.mem.set ea.toNat v) :
    wroteOnly s t ea v := by
  intro k
  rw [State.inBounds_iff] at hea
  have hcell : k = ea.toNat ↔ (k : Int) = ea := by omega
  simp only [ht, Memory.get_set, hcell]

/-- The end where the ALU function answers a Word. -/
theorem State.binaryToMemory_stores (h : resolves3 s a b d) (hf : f (s.operandValue a) (s.operandValue b) = .ok r) :
    ∃ t, s.complete (s.binaryToMemory a b d f) = .next t ∧ wroteOnly s t (s.effectiveAddress d) r ∧
      t = { s with mem := t.mem, pc := s.pc + 4 } := by
  have ⟨_, _, _, hd⟩ := h
  refine ⟨(s.store (s.effectiveAddress d) r).advance 4, ?_, wroteOnly_of_mem_eq_set ((s.writable_iff d).mp hd).2 rfl, rfl⟩
  rw [(s.binaryToMemory_ok_iff _ a b d f).mpr ⟨h, r, hf, rfl⟩, State.complete_ok]

/-- The end where the ALU function raises. -/
theorem State.binaryToMemory_raises {e : Raise} (h : resolves3 s a b d)
    (hf : f (s.operandValue a) (s.operandValue b) = .error e) :
    s.complete (s.binaryToMemory a b d f) = .next (s.faultEntry e) := by
  rw [s.binaryToMemory_resolved a b d f h, hf]
  rfl

/-- Both ends where the ALU function is `fit` of an exact result `v`. -/
theorem State.binaryToMemory_fits (h : resolves3 s a b d) (hf : f (s.operandValue a) (s.operandValue b) = fit s.cfg v) :
    (∀ r, fittedResult s.cfg v r →
      ∃ t, s.complete (s.binaryToMemory a b d f) = .next t ∧ wroteOnly s t (s.effectiveAddress d) r ∧
        t = { s with mem := t.mem, pc := s.pc + 4 }) ∧
    (overflows s.cfg v →
      entersFault (s.complete (s.binaryToMemory a b d f)) s .overflow s.wordAtPc none none none) :=
  ⟨fun _ hr => State.binaryToMemory_stores h (hf.trans (fit_eq_ok_iff.mpr hr)),
    fun ho => State.binaryToMemory_raises h (hf.trans (fit_of_overflows ho))⟩

/-- Settles O13: the ALU function of `add` is `fit` of the sum. -/
theorem addStoresFittedSum : Obligations.AddStoresFittedSum :=
  fun s _ _ _ h => State.binaryToMemory_fits (f := aluAdd s.cfg) h rfl

/-- Settles O14: the ALU function of `mul` is `fit` of the product. -/
theorem mulStoresFittedProduct : Obligations.MulStoresFittedProduct :=
  fun s _ _ _ h => State.binaryToMemory_fits (f := aluMul s.cfg) h rfl

end Sys2Proof.Machine
end

section
/-! SUPPORT. Input, output and the two queues (R110 to R112). That `outputs` is never read is one equation: what stands in front
of the queue before an instruction stands in front of it after, and changes nothing else (`effect_prependOutputs`). -/

namespace Sys2Proof.Machine

open Sys2Proof.Claims

variable {s t : State} {i : Instr}

/-! ## The ends of `input` and `output` (R110, R111) -/

/-- A destination out of bounds raises before `inputs` is looked at. -/
theorem effect_input_outOfBounds {d : Operand} (hm : d.mode ≠ .immediate) (hp : s.paramsInBounds 1)
    (hd : s.inBounds (s.effectiveAddress d) = false) :
    s.effect (.input d) = .error (raiseOutOfBounds (s.effectiveAddress d) (some 0)) := by
  have hnot : ¬ s.writable d = true := by simp [State.writable_iff, hd]
  rw [State.effect, s.writeParam_eq 0 d hm, if_pos (s.paramsInBounds_one.mp hp), if_neg hnot, bind_error]

/-- Settles O17: the destination resolves and `takeInput` has its two ends (`State.takeInput_cons`, `exec_input_starved`), or it
raises (`effect_input_outOfBounds`). -/
theorem inputStoresFrontOrWaits : Obligations.InputStoresFrontOrWaits := by
  refine fun s d hm => ⟨fun hp hd v vs hin => ?_, fun hp hd hin => exec_input_starved hin hp hd, fun hp hd => ?_⟩
  · refine ⟨(s.dropInput.store (s.effectiveAddress d) v).advance 2, ?_,
      wroteOnly_of_mem_eq_set ((s.writable_iff d).mp hd).2 rfl, ?_⟩
    · rw [exec_eq_complete, (effect_input_ok_iff s _ d).mpr ⟨⟨hp, hd⟩, rfl⟩, s.takeInput_cons _ v vs hin, State.complete_ok]
    · simp [State.advance, State.setPc, State.store, State.dropInput, hin]
  · rw [entersFault, exec_eq_complete, effect_input_outOfBounds hm hp hd, State.complete_error]
    rfl

/-- Settles O18: an output that resolves completes (`effect_output_ok_iff`). -/
theorem outputAppends : Obligations.OutputAppends := by
  intro s a hp ha
  rw [exec_eq_complete, (effect_output_ok_iff s _ a).mpr ⟨⟨hp, ha⟩, rfl⟩]
  rfl

/-! ## Which instruction changes which queue (R112) -/

theorem effect_inputs (h : s.effect i = .ok t) :
    t.inputs = s.inputs ∨
      ∃ d v, i = .input d ∧ s.inputs = v :: t.inputs ∧ t.mem.get (s.effectiveAddress d).toNat = v := by
  rcases effect_ok_cases s t i h with ⟨d, v, -, -, -, rfl, -⟩ | ⟨d, rfl, -, -, rfl⟩ | ⟨a, -, rfl⟩ | ⟨a, b, -, rfl | rfl⟩ |
    ⟨a, r, -, -, rfl⟩ | ⟨-, rfl⟩
  case inr.inl =>
    rcases s.takeInput_cases (s.effectiveAddress d) with ⟨-, heq⟩ | ⟨v, vs, hin, heq⟩
    · exact .inl (by rw [heq]; rfl)
    · exact .inr ⟨d, v, rfl, by simp [heq, hin], by simp [heq]⟩
  all_goals exact .inl rfl

theorem effect_outputs (h : s.effect i = .ok t) :
    t.outputs = s.outputs ∨ ∃ a, i = .output a ∧ t.outputs = s.outputs ++ [s.operandValue a] := by
  rcases effect_ok_cases s t i h with ⟨d, v, -, -, -, rfl, -⟩ | ⟨d, -, -, -, rfl⟩ | ⟨a, rfl, rfl⟩ | ⟨a, b, -, rfl | rfl⟩ |
    ⟨a, r, -, -, rfl⟩ | ⟨-, rfl⟩
  case inr.inl =>
    rcases s.takeInput_cases (s.effectiveAddress d) with ⟨-, heq⟩ | ⟨v, vs, -, heq⟩ <;> exact .inl (by rw [heq]; rfl)
  case inr.inr.inl => exact .inr ⟨a, rfl, rfl⟩
  all_goals exact .inl rfl

/-! ## `outputs` is never read (R112) -/

/-- `s` with older Words in front of its output queue. -/
def State.prependOutputs (os : List Int) (s : State) : State := { s with outputs := os ++ s.outputs }

theorem State.takeInput_prependOutputs (os : List Int) (s : State) (ea : Int) :
    (s.prependOutputs os).takeInput ea = (s.takeInput ea).prependOutputs os := by
  rcases s.takeInput_cases ea with ⟨hin, heq⟩ | ⟨v, vs, hin, heq⟩
  · rw [heq, (s.prependOutputs os).takeInput_nil ea hin]
    rfl
  · rw [heq, (s.prependOutputs os).takeInput_cons ea v vs hin]
    rfl

theorem State.pushOutput_prependOutputs (os : List Int) (s : State) (v : Int) :
    (s.prependOutputs os).pushOutput v = (s.pushOutput v).prependOutputs os := by
  simp [State.pushOutput, State.prependOutputs]

/-! Phase O and the other operations touch no queue, so each proof below ends in `rfl` once `prependOutputs` stands at the end of
the chain of checks. -/

theorem State.binaryToMemory_prependOutputs (os : List Int) (s : State) (a b d : Operand)
    (f : Int → Int → Except Raise Int) :
    (s.prependOutputs os).binaryToMemory a b d f = State.prependOutputs os <$> s.binaryToMemory a b d f := by
  simp only [State.binaryToMemory, map_bind, map_pure]
  rfl

theorem State.jumpWhen_prependOutputs (os : List Int) (s : State) (a b : Operand) (taken : Int → Bool) :
    (s.prependOutputs os).jumpWhen a b taken = State.prependOutputs os <$> s.jumpWhen a b taken := by
  simp only [State.jumpWhen, map_bind, map_pure, apply_ite (State.prependOutputs os)]
  rfl

/-- Older outputs stay in front, and an instruction ends as it does without them, fault or not. -/
theorem effect_prependOutputs (os : List Int) (s : State) (i : Instr) :
    (s.prependOutputs os).effect i = State.prependOutputs os <$> s.effect i := by
  cases i with
  | add a b d => exact s.binaryToMemory_prependOutputs os a b d (aluAdd s.cfg)
  | mul a b d => exact s.binaryToMemory_prependOutputs os a b d (aluMul s.cfg)
  | input d =>
    simp only [State.effect, map_bind, map_pure, State.takeInput_prependOutputs]
    rfl
  | output a =>
    simp only [State.effect, map_bind, map_pure, State.pushOutput_prependOutputs]
    rfl
  | jumpIfTrue a b => exact s.jumpWhen_prependOutputs os a b (fun x => !zeroTest x)
  | jumpIfFalse a b => exact s.jumpWhen_prependOutputs os a b zeroTest
  | lessThan a b d => exact s.binaryToMemory_prependOutputs os a b d (fun x y => .ok (aluLt x y))
  | equals a b d => exact s.binaryToMemory_prependOutputs os a b d (fun x y => .ok (aluEq x y))
  | adjustRelativeBase a =>
    simp only [State.effect, map_bind, map_pure]
    rfl
  | halt => rfl

theorem exec_prependOutputs (os : List Int) (h : exec i s = .next t) :
    exec i (s.prependOutputs os) = .next (t.prependOutputs os) := by
  rw [exec_eq_complete, State.complete_eq_next] at h
  rw [exec_eq_complete, effect_prependOutputs]
  rcases h with h | ⟨e, h, rfl⟩ <;> rw [h] <;> rfl

/-- Both queues stand in front of what the instruction outputs from an empty one. -/
theorem exec_with_outputs (os : List Int) (h : exec i s = .next t) :
    exec i { s with outputs := os } = .next { t with outputs := os ++ t.outputs.drop s.outputs.length } := by
  obtain ⟨u, hu⟩ := exec_next i { s with outputs := [] }
  have hfront (qs : List Int) : exec i { s with outputs := qs } = .next (u.prependOutputs qs) := by
    simpa [State.prependOutputs] using exec_prependOutputs qs hu
  obtain rfl : t = u.prependOutputs s.outputs := by
    simpa using h.symm.trans (hfront s.outputs)
  rw [hfront os]
  simp [State.prependOutputs]

/-- Settles O30: an instruction ends in a fault entry, which leaves both queues, or completes (`effect_inputs`,
`effect_outputs`); an output that resolves completes (`outputAppends`); another output queue changes nothing else
(`exec_with_outputs`). -/
theorem queuesAreStrictFifos : Obligations.QueuesAreStrictFifos := by
  intro i s t h
  have hend := (State.complete_eq_next s t _).mp (exec_eq_complete i s ▸ h)
  refine ⟨?_, ?_, ?_, fun os => exec_with_outputs os h⟩
  · rcases hend with hok | ⟨e, -, rfl⟩
    · exact effect_inputs hok
    · exact .inl rfl
  · rcases hend with hok | ⟨e, -, rfl⟩
    · exact effect_outputs hok
    · exact .inl rfl
  · rintro a rfl hp ha
    rw [outputAppends s a hp ha] at h
    cases h
    exact ⟨rfl, rfl⟩

end Sys2Proof.Machine
end

section
/-! SUPPORT. The conditional jumps (R120 to R123): both ends are one write to `pc` (`State.setPc_ite_eq`), and a taken jump sets it to
its target unchecked (`exec_jump_taken`). -/

namespace Sys2Proof.Machine

open Sys2Proof.Claims

variable {s : State} {a b : Operand} {i : Instr}

theorem State.setPc_ite_eq (p : Prop) [Decidable p] (s : State) (v k : Int) :
    s.setPc (if p then v else s.pc + k) = if p then s.setPc v else s.advance k :=
  apply_ite s.setPc p v (s.pc + k)

/-- Settles O19: with both operands resolved a jump completes (`effect_jumpIfTrue_ok_iff`, `effect_jumpIfFalse_ok_iff`). -/
theorem jumpsTestForZero : Obligations.JumpsTestForZero := by
  refine fun s a b hp ha hb => ⟨?_, ?_⟩
  · have heff := (effect_jumpIfTrue_ok_iff s _ a b).mpr ⟨⟨hp, ha, hb⟩, rfl⟩
    rw [exec_eq_complete, heff, State.complete_ok, ← State.setPc_ite_eq]
    rfl
  · have heff := (effect_jumpIfFalse_ok_iff s _ a b).mpr ⟨⟨hp, ha, hb⟩, rfl⟩
    rw [exec_eq_complete, heff, State.complete_ok, ← State.setPc_ite_eq]
    rfl

/-- A taken jump ends at its target, in bounds or not (R123). -/
theorem exec_jump_taken (hp : s.paramsInBounds 2) (ha : s.readable a = true) (hb : s.readable b = true)
    (hi : i = .jumpIfTrue a b ∧ s.operandValue a ≠ 0 ∨ i = .jumpIfFalse a b ∧ s.operandValue a = 0) :
    exec i s = .next (s.setPc (s.operandValue b)) := by
  obtain ⟨hTrue, hFalse⟩ := jumpsTestForZero s a b hp ha hb
  rcases hi with ⟨rfl, hne⟩ | ⟨rfl, hzero⟩
  · rw [hTrue, if_pos hne]
    rfl
  · rw [hFalse, if_pos hzero]
    rfl

/-- Settles O20: the taken jump completes at its target (`exec_jump_taken`), where the next fetch raises
(`fetchOutOfBoundsFaults`). -/
theorem jumpTargetIsCheckedAtNextFetch : Obligations.JumpTargetIsCheckedAtNextFetch := by
  intro s a b i hs _ hfetch hi hp ha hb hout
  have hstep : step s = .next (s.resume.setPc (s.operandValue b)) :=
    (step_of_fetchDecode_ok hs hfetch).trans (exec_jump_taken (s := s.resume) hp ha hb hi)
  have hfault := (fetchOutOfBoundsFaults (s.resume.setPc (s.operandValue b)) (.inl rfl)).1
    (State.inBounds_eq_false_iff.mp hout)
  exact ⟨_, hstep, rfl, rfl, hfault⟩

end Sys2Proof.Machine
end

section
/-! SUPPORT. The comparisons (R130 to R133): their ALU functions are tests that always answer a Word, 1 or 0, so `less-than` and
`equals` have the storing end of a three-operand instruction alone. -/

namespace Sys2Proof.Machine

open Sys2Proof.Claims

variable {s : State} {a b d : Operand} {f : Int → Int → Except Raise Int}

/-- The storing end where the ALU function answers 1 if `p` holds, else 0. -/
theorem State.binaryToMemory_stores_test {p : Prop} [Decidable p] (h : resolves3 s a b d)
    (hf : f (s.operandValue a) (s.operandValue b) = .ok (if p then 1 else 0)) :
    ∃ t, s.complete (s.binaryToMemory a b d f) = .next t ∧ (p → wroteOnly s t (s.effectiveAddress d) 1) ∧
      (¬ p → wroteOnly s t (s.effectiveAddress d) 0) ∧ t = { s with mem := t.mem, pc := s.pc + 4 } := by
  obtain ⟨t, hnext, hwrote, hframe⟩ := State.binaryToMemory_stores h hf
  refine ⟨t, hnext, fun hp => ?_, fun hp => ?_, hframe⟩
  · rwa [if_pos hp] at hwrote
  · rwa [if_neg hp] at hwrote

/-- Settles O15: the ALU function of `less-than` is the test `a < b` (R130), which fails exactly when `b ≤ a`. -/
theorem lessThanStoresOneOrZero : Obligations.LessThanStoresOneOrZero := by
  intro s a b d h
  obtain ⟨t, hnext, hlt, hnlt, hframe⟩ :=
    State.binaryToMemory_stores_test (f := fun x y => .ok (aluLt x y)) (p := s.operandValue a < s.operandValue b) h rfl
  exact ⟨t, hnext, hlt, fun hle => hnlt hle.not_gt, hframe⟩

/-- Settles O16: the ALU function of `equals` is the test `a = b` (R131). -/
theorem equalsStoresOneOrZero : Obligations.EqualsStoresOneOrZero :=
  fun s a b _ h => State.binaryToMemory_stores_test (f := fun x y => .ok (aluEq x y))
    (p := s.operandValue a = s.operandValue b) h rfl

end Sys2Proof.Machine
end

section
/-! SUPPORT. `adjust-relative-base` and `halt` (R140, R141). With its operand resolved, the first ends as `fit` of the sum does
(`effect_adjustRelativeBase_resolved`); the second always completes, in a terminal state. -/

namespace Sys2Proof.Machine

open Sys2Proof.Claims

variable {s : State} {a : Operand}

/-- With the operand resolved, what is left is the answer of `fit` on the sum with the old `rb`. -/
theorem effect_adjustRelativeBase_resolved (hp : s.paramsInBounds 1) (ha : s.readable a = true) :
    s.effect (.adjustRelativeBase a) =
      (fit s.cfg (s.rb + s.operandValue a) >>= fun r => .ok ((s.setRb r).advance 2)) := by
  rw [State.effect, (s.readParam_ok_iff 0 a _).mpr ⟨s.paramsInBounds_one.mp hp, ha, rfl⟩, bind_ok]
  rfl

/-- Settles O21: the sum has a fitted result, which `fit` answers (`fit_eq_ok_iff`), or it overflows, and `fit` raises
(`fit_of_overflows`). -/
theorem adjustRelativeBaseAddsToRb : Obligations.AdjustRelativeBaseAddsToRb := by
  intro s a hp ha
  rw [exec_eq_complete, effect_adjustRelativeBase_resolved hp ha]
  refine ⟨fun r hr => ?_, fun ho => ?_⟩
  · rw [fit_eq_ok_iff.mpr hr]
    rfl
  · rw [fit_of_overflows ho]
    rfl

/-- Settles O22: `halt` completes (`effect_halt_ok_iff`) in a terminal state, which no step leaves (`run_core_terminal`). -/
theorem haltStopsForGood : Obligations.HaltStopsForGood := by
  refine fun s => ⟨?_, fun n => run_core_terminal n rfl⟩
  rw [exec_eq_complete, (effect_halt_ok_iff s s.stop).mpr rfl]
  rfl

end Sys2Proof.Machine
end

section
/-! SUPPORT. The faults of phase D that name a parameter (R152, R153, R156): which check of the fetched word fails first
(`checkModes_error`, `checkExcess_lowest`), and that its raise ends the step. -/

namespace Sys2Proof

open Sys2Proof.Machine Sys2Proof.Claims

variable {s : State} {cfg : Config} {w op : Int} {ks : List OperandKind} {e : Raise}

/-! ## The mode checks in ascending order (R68, R69) -/

/-- A mode check that fails is the fault of the word where every lower one passes. -/
theorem checkModes_error (j : Nat) {i : Nat} (hi : i < ks.length) (he : decodeMode w ks[i] (j + i) = .error e)
    (hlow : ∀ k (hk : k < i), ∃ m, decodeMode w ks[k] (j + k) = .ok m) : checkModes w j ks = .error e := by
  induction ks generalizing i j with
  | nil => cases hi
  | cons kind ks ih =>
    cases i with
    | zero => exact bind_eq_error.mpr (.inl he)
    | succ i =>
      obtain ⟨m, hm⟩ := hlow 0 i.succ_pos
      have hrest : checkModes w (j + 1) ks = .error e := by
        refine ih (j + 1) (Nat.lt_of_succ_lt_succ hi) ?_ fun k hk => ?_
        · rw [Nat.add_right_comm]
          exact he
        · rw [Nat.add_right_comm]
          exact hlow (k + 1) (Nat.succ_lt_succ hk)
      exact bind_eq_error.mpr (.inr ⟨m, hm, hrest⟩)

theorem decodeMode_of_illegal {kind : OperandKind} {k : Nat} (h : ¬ legalModeDigit (digit w (k + 2))) :
    decodeMode w kind k = .error { kind := .invalidMode, param := some k, mode := some (digit w (k + 2)) } := by
  have hnone : modeOfDigit (digit w (k + 2)) = none := (modeOfDigit_eq_none _).mpr (by simpa using h)
  exact (decodeMode_error_iff w kind k _).mpr (.inl ⟨hnone, rfl⟩)

theorem decodeMode_of_immediate_write {k : Nat} (h : digit w (k + 2) = 1) :
    decodeMode w .write k = .error { kind := .invalidWriteMode, param := some k, mode := some 1 } :=
  (decodeMode_error_iff w .write k _).mpr (.inr ⟨rfl, h, rfl⟩)

theorem exists_decodeMode_read {k : Nat} (h : legalModeDigit (digit w (k + 2))) : ∃ m, decodeMode w .read k = .ok m :=
  exists_decodeMode_ok_iff.mpr ⟨h, nofun⟩

/-- In the table of R62 only an instruction's last parameter is written. -/
theorem kind_eq_read_of_not_last (h : paramKinds op = some ks) {k : Nat} (hk : k + 1 < ks.length) : ks[k] = .read := by
  unfold paramKinds at h
  split_ifs at h <;> cases h
  · obtain rfl | rfl : k = 0 ∨ k = 1 := by simp at hk; omega
    · rfl
    · rfl
  · simp at hk
  · simp at hk
  · obtain rfl : k = 0 := by simp at hk; omega
    rfl
  · simp at hk

/-! ## The lowest digit above the mode digits (R70) -/

/-- Where every digit from `n` on is divided away, each of them is 0. -/
theorem digit_eq_zero_of_quotient (hw : 0 ≤ w) {n j : Nat} (hq : quotient w (pow10 (n + 2)) = 0) (hj : n ≤ j) :
    digit w (j + 2) = 0 := by
  obtain ⟨x, rfl⟩ := Int.eq_ofNat_of_zero_le hw
  rw [quotient_natCast, Int.natCast_eq_zero] at hq
  have hle : x / 10 ^ (j + 2) ≤ x / 10 ^ (n + 2) :=
    Nat.div_le_div_left (Nat.pow_le_pow_right (by norm_num) (by omega)) (by positivity)
  rw [digit_natCast, Nat.le_zero.mp (hle.trans_eq hq)]
  rfl

/-- Under `reject` the check reports the lowest nonzero digit, whichever it is. -/
theorem checkExcess_lowest (hw : 0 ≤ w) (hr : cfg.excessDigits = .reject) {n j : Nat} (hj : n ≤ j)
    (hd : digit w (j + 2) ≠ 0) (hlow : ∀ k, n ≤ k → k < j → digit w (k + 2) = 0) :
    checkExcess cfg w n = .error { kind := .invalidMode, param := some j, mode := some (digit w (j + 2)) } := by
  cases h : checkExcess cfg w n with
  | ok =>
    have hq := (checkExcess_ok_iff cfg w n).mp h hr
    exact absurd (digit_eq_zero_of_quotient hw hq hj) hd
  | error e =>
    obtain ⟨-, i, hi, hdi, hlowi, rfl⟩ := checkExcess_error cfg w n e hw h
    obtain rfl : i = j := by
      rcases lt_trichotomy i j with hlt | heq | hgt
      · exact absurd (hlow i hi hlt) hdi
      · exact heq
      · exact absurd (hlowi j hj hgt) hd
    rfl

/-! ## The step (R157) -/

/-- A word with a legal opcode that fails its checks ends the step in the fault of the check. -/
theorem step_entersFault_of_checkWord_error (hs : active s) (hf : fetches s w) (hw : 0 ≤ w)
    (hks : paramKinds (opcodeField w) = some ks) (he : checkWord s.cfg w ks = .error e) :
    entersFault (step s) s e.kind (some w) e.param e.mode e.addr :=
  step_entersFault_of_decodeFetched_error hs hf ((decodeWord_error_iff_checkWord _ _ _ hw hks).mpr he)

theorem step_entersFault_of_decodeMode_error (hs : active s) (hf : fetches s w) (hw : 0 ≤ w)
    (hks : paramKinds (opcodeField w) = some ks) {i : Nat} (hi : i < ks.length)
    (hlow : ∀ k (hk : k < i), legalModeDigit (digit w (k + 2))) (he : decodeMode w ks[i] i = .error e) :
    entersFault (step s) s e.kind (some w) e.param e.mode e.addr := by
  have hmodes : checkModes w 0 ks = .error e := by
    refine checkModes_error 0 hi (by rwa [Nat.zero_add]) fun k hk => ?_
    rw [kind_eq_read_of_not_last hks (by omega), Nat.zero_add]
    exact exists_decodeMode_read (hlow k hk)
  exact step_entersFault_of_checkWord_error hs hf hw hks (bind_eq_error.mpr (.inl hmodes))

/-- Settles O8: a mode check that fails is the lowest to fail, for no lower parameter is written; with every mode check passed it
is the lowest digit above them (`checkExcess_lowest`). -/
theorem lowestIllegalModeFaults : Obligations.LowestIllegalModeFaults := by
  refine fun s w ks hs hf hw hks => ⟨fun i hi hd hlow => ?_, fun hr hmodes j hj hd hlow => ?_⟩
  · exact step_entersFault_of_decodeMode_error hs hf hw hks hi hlow (decodeMode_of_illegal hd)
  · have hpass : checkModes w 0 ks = .ok () :=
      (checkModes_ok_iff 0 ks).mpr fun k hk => exists_decodeMode_ok_iff.mpr (by simpa using hmodes k hk)
    have hexcess := checkExcess_lowest hw hr hj hd hlow
    exact step_entersFault_of_checkWord_error hs hf hw hks (bind_eq_error.mpr (.inr ⟨(), hpass, hexcess⟩))

/-- Settles O9: the write-mode check of the last parameter fails, and the mode checks below it pass. -/
theorem immediateWriteFaults : Obligations.ImmediateWriteFaults := by
  refine fun s w hs hf hw => ⟨fun (hop : opcodeField w ∈ _) h4 h2 h3 => ?_, fun (hop : opcodeField w = 3) h2 => ?_⟩
  · have hks : paramKinds (opcodeField w) = some [.read, .read, .write] := if_pos (by simpa using hop)
    refine step_entersFault_of_decodeMode_error (i := 2) hs hf hw hks (by simp) (fun k hk => ?_)
      (decodeMode_of_immediate_write h4)
    obtain rfl | rfl : k = 0 ∨ k = 1 := by omega
    · exact h2
    · exact h3
  · have hks : paramKinds (opcodeField w) = some [.write] := by rw [hop]; rfl
    exact step_entersFault_of_decodeMode_error (i := 0) hs hf hw hks (by simp) (fun k hk => absurd hk k.not_lt_zero)
      (decodeMode_of_immediate_write h2)

end Sys2Proof
end

section
/-! SUPPORT. The faults of phases O and E (R88, R154, R155). Phase O is one walk over the instruction's dereferences that raises at
the first out of bounds (`State.checkAll`); what is left after it is phase E, which can only overflow (`effect_eq_checkAll_bind`,
`State.phaseE_error`). -/

namespace Sys2Proof.Machine

open Sys2Proof.Claims

variable {s t : State} {i : Instr} {a b d o : Operand} {e : Raise}

/-! ## The walk -/

/-- The bounds checks of the given dereferences, in order. -/
def State.checkAll (s : State) : List (Nat × Int) → Except Raise Unit
  | [] => .ok ()
  | (k, a) :: ds => if s.inBounds a then s.checkAll ds else .error (raiseOutOfBounds a (some k))

theorem State.checkAll_append (s : State) (ds ds' : List (Nat × Int)) :
    s.checkAll (ds ++ ds') = (s.checkAll ds >>= fun _ => s.checkAll ds') := by
  induction ds with
  | nil => rfl
  | cons p ds ih =>
    simp only [List.cons_append, State.checkAll, ih]
    split <;> rfl

/-- The walk raises at the first dereference out of bounds, and passes where there is none. -/
theorem State.checkAll_eq_find? (s : State) (ds : List (Nat × Int)) :
    s.checkAll ds = (ds.find? (fun p => !s.inBounds p.2)).elim (.ok ())
      (fun p => .error (raiseOutOfBounds p.2 (some p.1))) := by
  induction ds with
  | nil => rfl
  | cons p ds ih => by_cases hp : s.inBounds p.2 = true <;> simp [State.checkAll, hp, ih]

/-! ## One operand -/

/-- The dereferences of parameter `k`: its parameter word, then its address unless it is immediate (R88). -/
def State.paramDereferences (s : State) (k : Nat) (o : Operand) : List (Nat × Int) :=
  (k, s.pc + 1 + (k : Int)) :: (if o.mode = .immediate then [] else [(k, s.effectiveAddress o)])

theorem State.readParam_eq_checkAll_bind (s : State) (k : Nat) (o : Operand) :
    s.readParam k o = (s.checkAll (s.paramDereferences k o) >>= fun _ => .ok (s.operandValue o)) := by
  rw [State.readParam_eq]
  by_cases hm : o.mode = .immediate
  · have hread : s.readable o = true := (s.readable_iff o).mpr (.inl hm)
    simp only [State.paramDereferences, State.checkAll, if_pos hm, if_pos hread]
    split <;> rfl
  · have hread : s.readable o = s.inBounds (s.effectiveAddress o) := by simp [State.readable, hm]
    simp only [State.paramDereferences, State.checkAll, if_neg hm, hread]
    split
    · split <;> rfl
    · rfl

theorem State.writeParam_eq_checkAll_bind (s : State) (k : Nat) (hm : o.mode ≠ .immediate) :
    s.writeParam k o = (s.checkAll (s.paramDereferences k o) >>= fun _ => .ok (s.effectiveAddress o)) := by
  have hwrite : s.writable o = s.inBounds (s.effectiveAddress o) := by simp [State.writable, hm]
  rw [s.writeParam_eq k o hm]
  simp only [State.paramDereferences, State.checkAll, if_neg hm, hwrite]
  split
  · split <;> rfl
  · rfl

/-! ## A whole instruction -/

theorem dereferences_one {k : OperandKind} (s : State) (h : i.operands = [(k, a)]) :
    dereferences s i = s.paramDereferences 0 a := by
  simp [dereferences, h, State.paramDereferences]

theorem dereferences_two {k k' : OperandKind} (s : State) (h : i.operands = [(k, a), (k', b)]) :
    dereferences s i = s.paramDereferences 0 a ++ s.paramDereferences 1 b := by
  simp [dereferences, h, State.paramDereferences]

theorem dereferences_three {k k' k'' : OperandKind} (s : State) (h : i.operands = [(k, a), (k', b), (k'', d)]) :
    dereferences s i = s.paramDereferences 0 a ++ s.paramDereferences 1 b ++ s.paramDereferences 2 d := by
  simp [dereferences, h, State.paramDereferences]

theorem State.binaryToMemory_eq_checkAll_bind (s : State) (a b : Operand) (hd : d.mode ≠ .immediate)
    (f : Int → Int → Except Raise Int) :
    s.binaryToMemory a b d f =
      (s.checkAll (s.paramDereferences 0 a ++ s.paramDereferences 1 b ++ s.paramDereferences 2 d) >>= fun _ =>
        f (s.operandValue a) (s.operandValue b) >>= fun r => .ok ((s.store (s.effectiveAddress d) r).advance 4)) := by
  simp only [State.binaryToMemory, State.readParam_eq_checkAll_bind, s.writeParam_eq_checkAll_bind 2 hd,
    State.checkAll_append, bind_assoc, bind_ok, pure_eq_ok]

theorem State.jumpWhen_eq_checkAll_bind (s : State) (a b : Operand) (taken : Int → Bool) :
    s.jumpWhen a b taken =
      (s.checkAll (s.paramDereferences 0 a ++ s.paramDereferences 1 b) >>= fun _ =>
        .ok (if taken (s.operandValue a) then s.setPc (s.operandValue b) else s.advance 3)) := by
  simp only [State.jumpWhen, State.readParam_eq_checkAll_bind, State.checkAll_append, bind_assoc, bind_ok, pure_eq_ok]

/-- Phase E: what an instruction does once its operands are resolved (R88, R90). -/
def State.phaseE (s : State) : Instr → Except Raise State
  | .add a b d => do
    let r ← fit s.cfg (s.operandValue a + s.operandValue b)
    return (s.store (s.effectiveAddress d) r).advance 4
  | .mul a b d => do
    let r ← fit s.cfg (s.operandValue a * s.operandValue b)
    return (s.store (s.effectiveAddress d) r).advance 4
  | .input d => .ok (s.takeInput (s.effectiveAddress d))
  | .output a => .ok ((s.pushOutput (s.operandValue a)).advance 2)
  | .jumpIfTrue a b => .ok (if !zeroTest (s.operandValue a) then s.setPc (s.operandValue b) else s.advance 3)
  | .jumpIfFalse a b => .ok (if zeroTest (s.operandValue a) then s.setPc (s.operandValue b) else s.advance 3)
  | .lessThan a b d => .ok ((s.store (s.effectiveAddress d) (aluLt (s.operandValue a) (s.operandValue b))).advance 4)
  | .equals a b d => .ok ((s.store (s.effectiveAddress d) (aluEq (s.operandValue a) (s.operandValue b))).advance 4)
  | .adjustRelativeBase a => do
    let r ← fit s.cfg (s.rb + s.operandValue a)
    return (s.setRb r).advance 2
  | .halt => .ok s.stop

/-- Phase E raises where `fit` does. -/
theorem State.phaseE_error (h : s.phaseE i = .error e) : e.kind = .overflow := by
  have fitted {v : Int} {f : Int → State} (h : (fit s.cfg v >>= fun r => .ok (f r)) = .error e) : e.kind = .overflow := by
    rcases bind_eq_error.mp h with h | ⟨r, -, h⟩
    · rw [(fit_error s.cfg v e h).1]
    · cases h
  cases i with
  | add | mul | adjustRelativeBase => exact fitted h
  | input | output | jumpIfTrue | jumpIfFalse | lessThan | equals | halt => cases h

/-- Phase O, then phase E, of an instruction that an encoding can spell (R69). -/
theorem effect_eq_checkAll_bind (s : State) (hd : ∀ d, destination i = some d → d.mode ≠ .immediate) :
    s.effect i = (s.checkAll (dereferences s i) >>= fun _ => s.phaseE i) := by
  cases i with
  | add a b d =>
    rw [dereferences_three s rfl]
    exact s.binaryToMemory_eq_checkAll_bind a b (hd d rfl) (aluAdd s.cfg)
  | mul a b d =>
    rw [dereferences_three s rfl]
    exact s.binaryToMemory_eq_checkAll_bind a b (hd d rfl) (aluMul s.cfg)
  | input d =>
    rw [dereferences_one s rfl, State.effect, s.writeParam_eq_checkAll_bind 0 (hd d rfl), bind_assoc]
    rfl
  | output a =>
    rw [dereferences_one s rfl, State.effect, s.readParam_eq_checkAll_bind 0 a, bind_assoc]
    rfl
  | jumpIfTrue a b =>
    rw [dereferences_two s rfl]
    exact s.jumpWhen_eq_checkAll_bind a b (fun x => !zeroTest x)
  | jumpIfFalse a b =>
    rw [dereferences_two s rfl]
    exact s.jumpWhen_eq_checkAll_bind a b zeroTest
  | lessThan a b d =>
    rw [dereferences_three s rfl]
    exact s.binaryToMemory_eq_checkAll_bind a b (hd d rfl) (fun x y => .ok (aluLt x y))
  | equals a b d =>
    rw [dereferences_three s rfl]
    exact s.binaryToMemory_eq_checkAll_bind a b (hd d rfl) (fun x y => .ok (aluEq x y))
  | adjustRelativeBase a =>
    rw [dereferences_one s rfl, State.effect, s.readParam_eq_checkAll_bind 0 a, bind_assoc]
    rfl
  | halt => rfl

theorem effect_of_firstOutOfBounds_some (hd : ∀ d, destination i = some d → d.mode ≠ .immediate) {k : Nat} {a : Int}
    (h : firstOutOfBounds s i = some (k, a)) : s.effect i = .error (raiseOutOfBounds a (some k)) := by
  rw [firstOutOfBounds] at h
  rw [effect_eq_checkAll_bind s hd, State.checkAll_eq_find?, h, Option.elim_some, bind_error]

theorem effect_of_firstOutOfBounds_none (hd : ∀ d, destination i = some d → d.mode ≠ .immediate)
    (h : firstOutOfBounds s i = none) : s.effect i = s.phaseE i := by
  rw [firstOutOfBounds] at h
  rw [effect_eq_checkAll_bind s hd, State.checkAll_eq_find?, h, Option.elim_none, bind_ok]

/-! ## What a fault of an instruction is (R154, R155) -/

/-- Settles O26: the fetch is the first dereference of a step (`fetchOutOfBoundsFaults`); an instruction raises at the first of its
own (`effect_of_firstOutOfBounds_some`), and without one it is phase E alone. -/
theorem outOfBoundsIsTheFirstDereference : Obligations.OutOfBoundsIsTheFirstDereference := by
  refine ⟨fun s hs hout => (fetchOutOfBoundsFaults s hs).1 (State.inBounds_eq_false_iff.mp hout), fun i s hwf => ?_⟩
  have hd (d : Operand) (h : destination i = some d) : d.mode ≠ .immediate :=
    (hwf _ (destination_eq_some_iff.mp h)).2 rfl
  refine ⟨fun k a hfirst => ?_, fun hnone t ht => ?_⟩
  · rw [entersFault, exec_eq_complete, effect_of_firstOutOfBounds_some hd hfirst]
    rfl
  · rw [exec_eq_complete, effect_of_firstOutOfBounds_none hd hnone, State.complete_eq_next] at ht
    rcases ht with hok | ⟨e, herr, rfl⟩
    · exact .inl (effect_cfg_flt s t i (effect_of_firstOutOfBounds_none hd hnone ▸ hok)).2
    · exact .inr ⟨_, rfl, State.phaseE_error herr⟩

/-- Settles O27: an instruction that completes leaves no record where there was none; of the raises of `effect_error` one is an
`Overflow`, of an exact result that is no Word. -/
theorem overflowOnlyFromArithmetic : Obligations.OverflowOnlyFromArithmetic := by
  intro i s t r hnone h hr hkind
  rw [exec_eq_complete, State.complete_eq_next] at h
  rcases h with hok | ⟨e, herr, rfl⟩
  · rw [(effect_cfg_flt s t i hok).2, hnone] at hr
    cases hr
  · cases hr
    rcases effect_error s i e herr with ⟨k, a, rfl⟩ | ⟨-, hm, hv⟩ | ⟨⟨k, rfl⟩, -⟩
    · cases hkind
    · refine ⟨hm, ?_⟩
      rcases hv with ⟨a, b, d, rfl, hv⟩ | ⟨a, b, d, rfl, hv⟩ | ⟨a, rfl, hv⟩ <;> exact ⟨_, rfl, hv⟩
    · cases hkind

end Sys2Proof.Machine
end

section
/-! SUPPORT. What a step that does not complete its instruction leaves: a fault entry (R157, R158) and a suspension (R160) write
`st`, and the fault its record, and nothing else. -/

namespace Sys2Proof.Machine

open Sys2Proof.Claims

variable {s t : State} {e : Raise} {d : Operand}

/-! ## Fault entry (R157, R158) -/

theorem State.wordAtPc_eq_some_iff {w : Int} : s.wordAtPc = some w ↔ fetches s w := by
  cases hpc : s.inBounds s.pc with
  | true => simp [s.wordAtPc_of_inBounds hpc, hpc]
  | false => simp [s.wordAtPc_of_outOfBounds hpc, hpc]

/-- A step from an active state that ends `Faulted` has entered a fault of its own instruction, from the state before it. -/
theorem step_faulted (hs : active s) (h : step s = .next t) (ht : t.st = .faulted) :
    ∃ e, t = s.faultEntry e ∧ (s.faultRecord e).fieldsOfKind = true := by
  rw [step_of_active hs] at h
  rcases stepInstr_cases s.resume t h with ⟨e, he, rfl⟩ | ⟨i, hi, heff | ⟨e, he, rfl⟩⟩
  · exact ⟨e, rfl, State.fieldsOfKind_of_fetchDecode_error he⟩
  · rcases effect_st heff with hst | ⟨d, -, -, rfl⟩ | ⟨-, rfl⟩
    · cases hst.symm.trans ht
    · cases ht
    · cases ht
  · exact ⟨e, rfl, State.fieldsOfKind_of_effect_error (s := s.resume) (State.inBounds_pc_of_fetchDecode hi) he⟩

/-- Settles O28: the record is that of a fault entry (`step_faulted`), whose word is the one at `pc`
(`State.wordAtPc_eq_some_iff`). -/
theorem faultsArePrecise : Obligations.FaultsArePrecise := by
  intro s t hs h ht
  obtain ⟨e, rfl, hfields⟩ := step_faulted hs h ht
  exact ⟨s.faultRecord e, rfl, rfl, hfields, fun _ => State.wordAtPc_eq_some_iff⟩

/-! ## Suspension (R160) -/

/-- A step that ends `Waiting` has suspended a starved input, resolved. -/
theorem step_waiting (hs : active s) (h : step s = .next t) (ht : t.st = .waiting) :
    t = s.suspend ∧ s.inputs = [] ∧
      ∃ d, s.fetchDecode = .ok (.input d) ∧ s.paramsInBounds 1 ∧ s.writable d = true := by
  rcases step_ends hs h with ⟨-, -, -, hready⟩ | ⟨d, hd, hin, rfl⟩ | ⟨-, rfl⟩ | ⟨e, rfl⟩
  · cases hready.symm.trans ht
  · rw [step_of_fetchDecode_ok hs hd] at h
    obtain ⟨-, d', hd', -, hp, hw⟩ := exec_waiting (s := s.resume) rfl h rfl
    cases hd'
    exact ⟨rfl, hin, d, hd, hp, hw⟩
  · cases ht
  · cases ht

/-- Settles O32: the suspended state keeps what the input resolved with, so a retry suspends again while `inputs` is empty
(`exec_input_starved`) and takes the one Word that is pushed (`inputStoresFrontOrWaits`). -/
theorem suspensionReturnsByRetry : Obligations.SuspensionReturnsByRetry := by
  intro s t hs h ht
  obtain ⟨rfl, hin, d, hd, hp, hw⟩ := step_waiting hs h ht
  refine ⟨rfl, ?_, d, hd, fun v => ?_⟩
  · rw [step_of_fetchDecode_ok (s := s.suspend) (.inr rfl) hd, exec_input_starved (s := s.suspend.resume) hin hp hw]
    rfl
  · have hqueue : (s.suspend.pushInput v).resume.inputs = [v] := by simp [hin]
    obtain ⟨u, hu, hwrote, hframe⟩ := (inputStoresFrontOrWaits (s.suspend.pushInput v).resume d
      ((s.writable_iff d).mp hw).1).1 hp hw v [] hqueue
    refine ⟨u, ?_, hwrote, ?_⟩
    · rw [step_of_fetchDecode_ok (s := s.suspend.pushInput v) (.inr rfl) hd, hu]
    · rw [hframe, ← hin]
      rfl

end Sys2Proof.Machine
end

section
/-! SUPPORT. The host's operations between runs (R56, R165): what each does, and that each keeps the invariant. -/

namespace Sys2Proof.Machine

open Sys2Proof.Claims

variable {s t : State} {a v x : Int}

/-! ## What each does -/

theorem State.popOutput_eq_some_iff :
    s.popOutput = some (x, t) ↔ ∃ xs, s.outputs = x :: xs ∧ t = { s with outputs := xs } := by
  unfold State.popOutput
  cases s.outputs with
  | nil => simp
  | cons y ys =>
    simp only [Option.some.injEq, Prod.mk.injEq, List.cons.injEq]
    constructor
    · rintro ⟨rfl, rfl⟩
      exact ⟨ys, ⟨rfl, rfl⟩, rfl⟩
    · rintro ⟨xs, ⟨rfl, rfl⟩, rfl⟩
      exact ⟨rfl, rfl⟩

theorem State.popOutput_eq_none (h : s.outputs = []) : s.popOutput = none := by
  simp [State.popOutput, h]

theorem State.hostRead_of_inBounds (h : s.inBounds a = true) : s.hostRead a = .ok (s.mem.get a.toNat) :=
  if_pos h

theorem State.hostRead_of_outOfBounds (h : s.inBounds a = false) : s.hostRead a = .error .hostAddressOutOfRange := by
  simp [State.hostRead, h]

theorem State.hostWrite_of_outOfBounds (v : Int) (h : s.inBounds a = false) :
    s.hostWrite a v = .error .hostAddressOutOfRange := by
  simp [State.hostWrite, h]

theorem State.hostRead_store_same (h : s.inBounds a = true) : (s.store a v).hostRead a = .ok v := by
  rw [State.hostRead_of_inBounds (s := s.store a v) h, State.store_mem, Memory.get_set, if_pos rfl]

/-- Settles O46: in bounds a host write is `State.store` (`State.hostWrite_ok_iff`), which is one cell's change
(`wroteOnly_of_mem_eq_set`); the other parts are the equations of the operations. -/
theorem hostOperationsDoOnlyTheirPart : Obligations.HostOperationsDoOnlyTheirPart := by
  refine fun s a v x xs => ⟨rfl, fun hout => State.popOutput_eq_some_iff.mpr ⟨xs, hout, rfl⟩, State.popOutput_eq_none,
    fun h0 hcap => ?_, fun hout => ?_, fun hst => ?_, fun hst => ?_, rfl⟩
  · have ha : s.inBounds a = true := (s.inBounds_iff a).mpr ⟨h0, hcap⟩
    exact ⟨s.store a v, State.hostWrite_ok_iff.mpr ⟨ha, rfl⟩, wroteOnly_of_mem_eq_set ha rfl, rfl,
      State.hostRead_store_same ha⟩
  · have ha : s.inBounds a = false := State.inBounds_eq_false_iff.mpr hout
    exact ⟨State.hostWrite_of_outOfBounds v ha, State.hostRead_of_outOfBounds ha⟩
  · rw [State.readState, if_neg hst]
  · rw [State.readState, if_pos hst]

/-! ## The invariant -/

theorem State.Inv.pushInput (h : s.Inv) (hv : isWord s.cfg.wordBits v) : (s.pushInput v).Inv := by
  obtain ⟨hcfg, hwf, hmem, ⟨hpc, hrb, hin, hout⟩, hflt⟩ := h
  refine ⟨hcfg, hwf, hmem, ⟨hpc, hrb, fun x hx => ?_, hout⟩, hflt⟩
  rcases List.mem_append.mp hx with hx | hx
  · exact hin x hx
  · exact List.mem_singleton.mp hx ▸ hv

theorem State.Inv.popOutput (h : s.Inv) (hpop : s.popOutput = some (x, t)) : t.Inv ∧ isWord s.cfg.wordBits x := by
  obtain ⟨xs, hxs, rfl⟩ := State.popOutput_eq_some_iff.mp hpop
  obtain ⟨hcfg, hwf, hmem, ⟨hpc, hrb, hin, hout⟩, hflt⟩ := h
  rw [hxs, List.forall_mem_cons] at hout
  exact ⟨⟨hcfg, hwf, hmem, ⟨hpc, hrb, hin, hout.2⟩, hflt⟩, hout.1⟩

/-- Settles O42: each operation keeps the part of the invariant about what it writes; a host write in bounds is
`State.Inv.store`. -/
theorem hostOperationsKeepInvariant : Obligations.HostOperationsKeepInvariant := by
  refine fun s a v h hv => ⟨h.pushInput hv, fun x t hpop => h.popOutput hpop, fun t hwrite => ?_⟩
  obtain ⟨ha, rfl⟩ := State.hostWrite_ok_iff.mp hwrite
  exact h.store ha hv

end Sys2Proof.Machine
end

section
/-! SUPPORT. The text form of a program and its construction (R180, R181): what each function of the parser answers, in the
terms of the grammar; when `create` fails; and that it establishes the invariant. -/

namespace Sys2Proof.Machine

open Sys2Proof.Claims

variable {W : Nat} {c : Char} {tok text : List Char} {toks : List (List Char)} {v : Int} {ws : List Int}

/-! ## Digits and numbers -/

/-- A character of `[0-9]`, as `isNatural` writes it. -/
abbrev isDecimalDigit (c : Char) : Prop := '0' ≤ c ∧ c ≤ '9'

/-- The value of digits read after the number `acc`: `decimal` with its running value named. -/
def decimalFrom (acc : Int) (ds : List Char) : Int := ds.foldl (fun v c => 10 * v + ((c.toNat : Int) - 48)) acc

theorem decimalFrom_cons (acc : Int) (c : Char) (ds : List Char) :
    decimalFrom acc (c :: ds) = decimalFrom (10 * acc + ((c.toNat : Int) - 48)) ds := rfl

theorem decimal_eq_decimalFrom (ds : List Char) : decimal ds = decimalFrom 0 ds := rfl

theorem isDecimalDigit_iff_toNat : isDecimalDigit c ↔ 48 ≤ c.toNat ∧ c.toNat ≤ 57 := by
  simp only [isDecimalDigit, Char.le_def, UInt32.le_iff_toNat_le]
  rfl

theorem digitValue_of_isDecimalDigit (h : isDecimalDigit c) : digitValue c = some (c.toNat - 48) :=
  if_pos (isDecimalDigit_iff_toNat.mp h)

theorem digitValue_of_not_isDecimalDigit (h : ¬ isDecimalDigit c) : digitValue c = none :=
  if_neg (mt isDecimalDigit_iff_toNat.mpr h)

theorem digitsValue_eq_some_iff (acc : Nat) (ds : List Char) :
    (digitsValue acc ds).map (fun n : Nat => (n : Int)) = some v ↔
      (∀ c ∈ ds, isDecimalDigit c) ∧ v = decimalFrom acc ds := by
  induction ds generalizing acc with
  | nil => simp [digitsValue, decimalFrom, eq_comm]
  | cons c ds ih =>
    by_cases hc : isDecimalDigit c
    · have hcast : ((10 * acc + (c.toNat - 48) : Nat) : Int) = 10 * acc + ((c.toNat : Int) - 48) := by
        have := isDecimalDigit_iff_toNat.mp hc
        omega
      simp only [digitsValue, digitValue_of_isDecimalDigit hc, ih, decimalFrom_cons, hcast, List.forall_mem_cons,
        and_iff_right hc]
    · simp [digitsValue, digitValue_of_not_isDecimalDigit hc, hc]

theorem naturalValue_eq_some_iff (ds : List Char) :
    (naturalValue ds).map (fun n : Nat => (n : Int)) = some v ↔ isNatural ds ∧ v = decimal ds := by
  cases ds with
  | nil => simp [naturalValue, isNatural]
  | cons c ds =>
    rw [naturalValue, digitsValue_eq_some_iff]
    simp [isNatural, decimal_eq_decimalFrom]

theorem naturalValue_neg_eq_some_iff (ds : List Char) :
    (naturalValue ds).map (fun n : Nat => -(n : Int)) = some v ↔ isNatural ds ∧ v = -decimal ds := by
  rw [← neg_eq_iff_eq_neg, ← naturalValue_eq_some_iff]
  cases naturalValue ds <;> simp [neg_eq_iff_eq_neg]

/-! ## Tokens -/

theorem not_isNatural_cons (h : ¬ isDecimalDigit c) (ds : List Char) : ¬ isNatural (c :: ds) :=
  fun hnat => h (hnat.2 c List.mem_cons_self)

/-- A sign is no digit, so each form of a token is read by its own arm of `tokenValue`. -/
theorem tokenValue_eq_some_iff : tokenValue tok = some v ↔ tokenHasValue tok v := by
  unfold tokenValue
  split
  case h_1 ds =>
    rw [naturalValue_eq_some_iff]
    simp [tokenHasValue, not_isNatural_cons]
  case h_2 ds =>
    rw [naturalValue_neg_eq_some_iff]
    simp [tokenHasValue, not_isNatural_cons]
  case h_3 hplus hminus =>
    rw [naturalValue_eq_some_iff]
    constructor
    · exact .inl
    · rintro (h | ⟨ds, rfl, -⟩ | ⟨ds, rfl, -⟩)
      · exact h
      · exact absurd rfl (hplus ds)
      · exact absurd rfl (hminus ds)

theorem tokenWord_eq_some_iff : tokenWord W tok = some v ↔ tokenHasValue tok v ∧ isWord W v := by
  rw [← tokenValue_eq_some_iff, tokenWord]
  cases tokenValue tok with
  | none => simp
  | some x =>
    simp only [Option.ite_none_right_eq_some, Option.some.injEq]
    constructor
    · rintro ⟨hx, rfl⟩
      exact ⟨rfl, hx⟩
    · rintro ⟨rfl, hx⟩
      exact ⟨hx, rfl⟩

theorem tokenWords_eq_some_iff :
    tokenWords W toks = some ws ↔ List.Forall₂ (fun tok v => tokenWord W tok = some v) toks ws := by
  induction toks generalizing ws with
  | nil => simp [tokenWords, eq_comm]
  | cons tok toks ih =>
    simp only [List.forall₂_cons_left_iff, ← ih, tokenWords]
    cases tokenWord W tok with
    | none => simp
    | some w => cases tokenWords W toks <;> simp [eq_comm]

/-- A token holds signs and digits alone: neither a comma nor a space that `stripTrailing` removes. -/
theorem separator_not_mem_token (h : tokenHasValue tok v) : ∀ c ∈ tok, c ≠ ',' ∧ isSpace c = false := by
  have digit {ds : List Char} (hds : isNatural ds) (c : Char) (hc : c ∈ ds) : c ≠ ',' ∧ isSpace c = false := by
    have hrange := isDecimalDigit_iff_toNat.mp (hds.2 c hc)
    have ne {x : Char} (hx : x.toNat < 48) : c ≠ x := by
      rintro rfl
      omega
    simp [isSpace, ne]
  rcases h with ⟨hds, -⟩ | ⟨ds, rfl, hds, -⟩ | ⟨ds, rfl, hds, -⟩
  · exact digit hds
  · exact List.forall_mem_cons.mpr ⟨by decide, digit hds⟩
  · exact List.forall_mem_cons.mpr ⟨by decide, digit hds⟩

/-! ## Commas and trailing spaces -/

/-- The model's split is the library's. -/
theorem splitCommas_eq_splitOn (text : List Char) : splitCommas text = text.splitOn ',' := by
  induction text with
  | nil => simp [splitCommas]
  | cons c text ih =>
    simp only [splitCommas, List.splitOn_cons_eq_if_modifyHead, ih, beq_iff_eq]
    cases h : text.splitOn ',' with
    | nil => exact absurd h (List.splitOn_ne_nil ',' text)
    | cons tok toks => rfl

theorem forall_mem_intercalate {p : Char → Prop} (hcomma : p ',') (h : ∀ tok ∈ toks, ∀ c ∈ tok, p c) :
    ∀ c ∈ List.intercalate [','] toks, p c := by
  induction toks with
  | nil => simp
  | cons tok toks ih =>
    obtain ⟨htok, htoks⟩ := List.forall_mem_cons.mp h
    cases toks with
    | nil => simpa using htok
    | cons tok' toks =>
      rw [List.intercalate_cons_cons]
      simp only [List.forall_mem_append, List.forall_mem_singleton]
      exact ⟨⟨htok, hcomma⟩, ih htoks⟩

/-- The model's strip is the library's. -/
theorem stripTrailing_eq_rdropWhile (text : List Char) : stripTrailing text = text.rdropWhile isSpace := rfl

theorem isSpace_iff_mem : isSpace c = true ↔ c ∈ [' ', '\t', '\r', '\n'] := by
  simp [isSpace, or_assoc]

theorem stripTrailing_append {body tail : List Char} (hbody : ∀ c ∈ body, isSpace c = false)
    (htail : ∀ c ∈ tail, isSpace c = true) : stripTrailing (body ++ tail) = body := by
  have htail' : ∀ c ∈ tail.reverse, isSpace c = true := fun c hc => htail c (List.mem_reverse.mp hc)
  rw [stripTrailing, List.reverse_append, List.dropWhile_append_of_pos htail', ← List.rdropWhile,
    List.rdropWhile_eq_self_iff]
  intro hne
  simp [hbody _ (List.getLast_mem hne)]

/-! ## The grammar -/

theorem parseProgram_eq_ok_iff :
    parseProgram W text = .ok ws ↔
      List.Forall₂ (fun tok v => tokenHasValue tok v ∧ isWord W v) (splitCommas (stripTrailing text)) ws := by
  simp only [← tokenWord_eq_some_iff, ← tokenWords_eq_some_iff, parseProgram]
  cases tokenWords W (splitCommas (stripTrailing text)) <;> simp

theorem exists_tokenHasValue_of_forall₂ (h : List.Forall₂ (fun tok v => tokenHasValue tok v ∧ isWord W v) toks ws) :
    ∀ tok ∈ toks, ∃ v, tokenHasValue tok v := by
  induction h with
  | nil => simp
  | cons hv _ ih => exact List.forall_mem_cons.mpr ⟨⟨_, hv.1⟩, ih⟩

theorem isWord_of_forall₂ (h : List.Forall₂ (fun tok v => tokenHasValue tok v ∧ isWord W v) toks ws) :
    ∀ v ∈ ws, isWord W v := by
  induction h with
  | nil => simp
  | cons hv _ ih => exact List.forall_mem_cons.mpr ⟨hv.2, ih⟩

/-- Settles O45: what the parser strips and splits, the grammar appends and joins again; and since no token holds a comma or
a space, the parser takes a text of the grammar apart at exactly its joints. -/
theorem parseProgramFollowsTheGrammar : Obligations.ParseProgramFollowsTheGrammar := by
  intro W text ws
  rw [parseProgram_eq_ok_iff]
  constructor
  · intro h
    refine ⟨splitCommas (stripTrailing text), text.rtakeWhile isSpace, ?_, ?_, fun c hc => ?_, h⟩
    · rw [splitCommas_eq_splitOn]
      exact List.splitOn_ne_nil ',' _
    · rw [splitCommas_eq_splitOn, List.intercalate_splitOn, stripTrailing_eq_rdropWhile,
        List.rdropWhile_append_rtakeWhile]
    · exact isSpace_iff_mem.mp (List.mem_rtakeWhile_imp hc)
  · rintro ⟨toks, tail, hne, rfl, htail, h⟩
    have hsep : ∀ tok ∈ toks, ∀ c ∈ tok, c ≠ ',' ∧ isSpace c = false := fun tok htok =>
      have ⟨_, hv⟩ := exists_tokenHasValue_of_forall₂ h tok htok
      separator_not_mem_token hv
    have hbody : ∀ c ∈ List.intercalate [','] toks, isSpace c = false :=
      forall_mem_intercalate (by decide) fun tok htok c hc => (hsep tok htok c hc).2
    have hsplit : (List.intercalate [','] toks).splitOn ',' = toks :=
      List.splitOn_intercalate ',' (fun tok htok hc => (hsep tok htok ',' hc).1 rfl) hne
    rwa [stripTrailing_append hbody fun c hc => isSpace_iff_mem.mpr (htail c hc), splitCommas_eq_splitOn, hsplit]

/-! ## Construction -/

theorem create_text_of_error {cfg : Config} {e : HostError} (ins : List Int)
    (h : parseProgram cfg.wordBits text = .error e) : create cfg (.text text) ins = .error e := by
  simp [create, ProgramSource.toWords, h, bind, Except.bind]

theorem create_text_of_ok {cfg : Config} (ins : List Int) (h : parseProgram cfg.wordBits text = .ok ws) :
    create cfg (.text text) ins = create cfg (.words ws) ins := by
  simp [create, ProgramSource.toWords, h]

theorem create_words (cfg : Config) (ws ins : List Int) :
    create cfg (.words ws) ins =
      if cfg.cap < ws.length then .error .capacityTooSmall
      else if 2 ^ (cfg.wordBits - 1) < cfg.cap + 4 then .error .capacityTooLarge
      else .ok (State.initial cfg ws ins) := rfl

/-- The bound of R8 as the statements write it, over the integers. -/
theorem cap_le_iff (cfg : Config) :
    (cfg.cap : Int) ≤ (2 : Int) ^ (cfg.wordBits - 1) - 4 ↔ cfg.cap + 4 ≤ 2 ^ (cfg.wordBits - 1) := by
  rw [le_sub_iff_add_le]
  exact_mod_cast Iff.rfl

/-- Settles O44: the text's error comes from the parse alone, and the other three ends of `create` are the branches of its
two capacity checks. -/
theorem createErrorsInOrder : Obligations.CreateErrorsInOrder := by
  intro cfg text ws ins
  refine ⟨create_text_of_error ins, create_text_of_ok ins, ?_⟩
  rw [← not_le (a := (cfg.cap : Int)), cap_le_iff, create_words]
  split_ifs with hsmall hlarge
  · simp [hsmall]
  · simp [hsmall, hlarge, not_lt.mp hsmall]
  · simp [hsmall, not_lt.mp hsmall, not_lt.mp hlarge]

theorem ProgramSource.isWord_of_toWords {p : ProgramSource} (hp : ∀ ws, p = .words ws → ∀ v ∈ ws, isWord W v)
    (h : p.toWords W = .ok ws) : ∀ v ∈ ws, isWord W v := by
  cases p with
  | text t => exact isWord_of_forall₂ (parseProgram_eq_ok_iff.mp h)
  | words ws' =>
    obtain rfl : ws' = ws := Except.ok.inj h
    exact hp _ rfl

/-- Settles O41: a successful `create` answers `State.initial` of a program that fits, whose values are Words in either
form. -/
theorem createEstablishesInvariant : Obligations.CreateEstablishesInvariant := by
  intro cfg p ins s hW hp hins h
  obtain ⟨ws, hws, hlen, hcap, rfl⟩ := (create_ok_iff cfg p ins s).mp h
  exact State.Inv.initial ⟨hW, hcap⟩ hlen (ProgramSource.isWord_of_toWords hp hws) hins

end Sys2Proof.Machine
end
